-- ==== Sys2Proof/Word.lean ====
section
/-! DEFINITION. The value types that cross MZT-CORE's interface: Byte, Word, BlockState, text (00_scope.md R9, R11, R12). -/

namespace Sys2Proof

/-- A Byte: an 8-bit unsigned value, bit 7 the most significant (R9, R11). -/
abbrev Byte := BitVec 8

/-- A Word: a sequence of exactly 4 Bytes, index 0 first (R9, R12, R48). -/
abbrev Word := Vector Byte 4

/-- A BlockState: a sequence of exactly 16 Bytes in column-major flat order (R9, R12, R47). -/
abbrev BlockState := Vector Byte 16

/-- A text: a finite, possibly empty sequence of characters, each its character code, an unsigned integer (R12, R64).
That a code lies below 2^CHAR_W is a check of `WellFormed.lean`, so that the rules hold for every CHAR_W (R10, R108). -/
abbrev Text := List Nat

end Sys2Proof
end

