-- ==== Sys2Proof/Machine/Layout.lean ====
section
/-! DEFINITION. Layout of a BlockState and packing onto buses (20_memory.md R45, R47; packing: DESIGN CHOICE, log entry 14). -/

namespace Sys2Proof.Machine

/-- `idx(row, col) = row + 4*col` (R9, R47). -/
def idx (row col : Fin 4) : Fin 16 := ⟨row.val + 4 * col.val, by omega⟩

/-- Flat index `i` is in row `i mod 4` (R47). -/
def rowOf (i : Fin 16) : Fin 4 := ⟨i.val % 4, by omega⟩

/-- Flat index `i` is in column `i div 4` (R47). -/
def colOf (i : Fin 16) : Fin 4 := ⟨i.val / 4, by omega⟩

/-- Column `c` of a BlockState: the lanes `4c` to `4c+3`, rows 0 to 3 (R18, R47). -/
def column (st : BlockState) (c : Fin 4) : Word := Vector.ofFn fun r => st[idx r c]

/-- A Word from its bus: `w[i] = W[31-8i : 24-8i]` (R45). -/
def unpackWord (bus : BitVec 32) : Word :=
  Vector.ofFn fun i : Fin 4 => bus.extractLsb' (24 - 8 * i.val) 8

/-- A Word onto its bus, index 0 in the most significant byte (R45). -/
def packWord (w : Word) : BitVec 32 := w[0] ++ w[1] ++ w[2] ++ w[3]

/-- A BlockState from its bus: `st[i] = S[127-8i : 120-8i]` (R45). -/
def unpackBlock (bus : BitVec 128) : BlockState :=
  Vector.ofFn fun i : Fin 16 => bus.extractLsb' (120 - 8 * i.val) 8

/-- A BlockState onto its bus, index 0 in the most significant byte (R45): its four columns in order. -/
def packBlock (st : BlockState) : BitVec 128 :=
  packWord (column st 0) ++ packWord (column st 1) ++ packWord (column st 2) ++ packWord (column st 3)

end Sys2Proof.Machine
end

