-- ==== Sys2Proof/Config.lean ====
section
/-! DEFINITION. The parameters of the implementation (00_scope.md R10, 92_eei_decisions.md). The three open widths are an
argument of everything that depends on them, and a chip's own values stand in State's `widths` field. The parameter
SBOX stands in State's `rom` field (log entry 3). No value of this hardware is left free by the spec, so this file
holds no opaque constant. -/

namespace Sys2Proof.Config

/-- OP_W, the width of the operation code: fixed (R10, R60). -/
abbrev opW : Nat := 4

/-- The open width parameters of R10. -/
structure Widths where
  /-- CHAR_W, the width of one character of a text port (D5). -/
  charW : Nat
  /-- KEY_W, the width of the signed key port (D6). -/
  keyW  : Nat
  /-- LEN_W, the width of a length field and the bound on sequence length (D7). -/
  lenW  : Nat
  deriving DecidableEq, Repr

/-- The defaults of R10: 8, 32 and 16. -/
def Widths.default : Widths := { charW := 8, keyW := 32, lenW := 16 }

/-- The constraints of 92_eei_decisions.md's table of open parameters: at least 7, at least 1, at least 6. -/
def Widths.wf (p : Widths) : Bool := decide (7 ≤ p.charW) && decide (1 ≤ p.keyW) && decide (6 ≤ p.lenW)

end Sys2Proof.Config
end

