-- ==== Sys2Proof/Machine/Ports.lean ====
section
/-! DEFINITION. The request and response ports of 30_encoding.md R63, as plain data (DESIGN CHOICE, log entry 14). -/

namespace Sys2Proof.Machine

/-- The request ports as the host drives them (R63). The ports whose width is an open parameter hold natural numbers,
so that one type serves every width: a character's code, and the key port's bits as an unsigned number. Such a port
carries the number's low CHAR_W or KEY_W bits (DESIGN CHOICE, log entry 24). The physical transport of a text is not
fixed by the spec and the model takes a list (R64, D7; DESIGN CHOICE, log entry 6). -/
structure Request where
  op    : BitVec Config.opW
  txt   : List Nat
  key   : Nat
  stIn  : BitVec 128
  wPrev : BitVec 32
  wFour : BitVec 32
  wRcon : BitVec 32
  bIn   : BitVec 8
  deriving DecidableEq, Repr

/-- The operand ports of a request (R63). -/
inductive RequestPort where
  | txt | key | stIn | wPrev | wFour | wRcon | bIn
  deriving DecidableEq, Repr

/-- The response ports (R63). `none` is a port that is not driven: it carries no defined value and the model gives it
none (R70, D15; DEDUCED, log entry 10). `status` is driven in every response. Lengths and character codes are numbers
below 2^LEN_W and 2^CHAR_W. -/
structure ResponsePorts where
  status  : BitVec 2
  expLen  : Option Nat
  actLen  : Option Nat
  errLen  : Option (BitVec 1)
  errChar : Option (BitVec 1)
  txtOut  : Option (List Nat)
  stOut   : Option (BitVec 128)
  wOut    : Option (BitVec 32)
  wRot    : Option (BitVec 32)
  wSub    : Option (BitVec 32)
  wXrc    : Option (BitVec 32)
  deriving DecidableEq, Repr

/-- The response ports that are driven only in some responses (R63). -/
inductive ResponsePort where
  | expLen | actLen | errLen | errChar | txtOut | stOut | wOut | wRot | wSub | wXrc
  deriving DecidableEq, Repr

end Sys2Proof.Machine
end

