-- ==== Sys2Proof/Machine/Operands.lean ====
section
/-! DEFINITION. Every operand form: operands taken from the request ports (30_encoding.md R63 to R65), hexadecimal
operand assembly (41_parse.md R121, R122), and the request with all operand ports zero. -/

namespace Sys2Proof.Machine

/-- The text operand: the CHAR_W bits of each character as an unsigned integer (R12, R64). -/
def Request.text (p : Config.Widths) (r : Request) : Text := r.txt.map fun c => c % 2 ^ p.charW

/-- The key operand: `sext(key[KEY_W-1:0])`, two's complement (R14, R64, R102). -/
def Request.keyInt (p : Config.Widths) (r : Request) : Int := (BitVec.ofNat p.keyW r.key).toInt

/-- The BlockState operand, unpacked from its bus (R45, R63). -/
def Request.block (r : Request) : BlockState := unpackBlock r.stIn

/-- `prevWord`, unpacked from its bus (R45, R63). -/
def Request.prev (r : Request) : Word := unpackWord r.wPrev

/-- `wordFourBack`, unpacked from its bus (R45, R63). -/
def Request.four (r : Request) : Word := unpackWord r.wFour

/-- `roundConstant`, unpacked from its bus (R45, R63). -/
def Request.rcon (r : Request) : Word := unpackWord r.wRcon

/-- The Byte operand, used as it arrives (R63, R65). -/
def Request.byte (r : Request) : Byte := r.bIn

/-- A request with the given operation code and every operand port empty or zero. -/
def Request.bare (op : BitVec Config.opW) : Request :=
  { op := op, txt := [], key := 0, stIn := 0, wPrev := 0, wFour := 0, wRcon := 0, bIn := 0 }

/-- Two requests carry the same value on a port. -/
def Request.agreeOn (r r' : Request) : RequestPort → Prop
  | .txt => r.txt = r'.txt
  | .key => r.key = r'.key
  | .stIn => r.stIn = r'.stIn
  | .wPrev => r.wPrev = r'.wPrev
  | .wFour => r.wFour = r'.wFour
  | .wRcon => r.wRcon = r'.wRcon
  | .bIn => r.bIn = r'.bIn

/-- '0' to '9' (R121; ASCII: PRESUMED, log entry 7). -/
def isDecDigit (c : Nat) : Bool := decide (0x30 ≤ c) && decide (c ≤ 0x39)

/-- 'A' to 'F' (R121). -/
def isUpperHex (c : Nat) : Bool := decide (0x41 ≤ c) && decide (c ≤ 0x46)

/-- 'a' to 'f' (R121). -/
def isLowerHex (c : Nat) : Bool := decide (0x61 ≤ c) && decide (c ≤ 0x66)

/-- `isHex(c)`: the code is in one of the three ranges of R121. -/
def isHex (c : Nat) : Bool := isDecDigit c || isUpperHex c || isLowerHex c

/-- `val(c)` of a hexadecimal digit (R121). The spec gives no value to any other code, and no meaning uses it there:
a text holding one is refused before any digit is valued (R124; DESIGN CHOICE, log entry 23). -/
def hexVal (c : Nat) : Nat :=
  if isDecDigit c then c - 0x30 else if isUpperHex c then c - 0x41 + 10 else c - 0x61 + 10

/-- The Byte of the digit pair `h`, `l`: `16 * val(h) + val(l)` (R122; DEDUCED, log entry 20). -/
def pairByte (h l : Nat) : Byte := BitVec.ofNat 8 (16 * hexVal h + hexVal l)

/-- The `n` Bytes of a text of `2n` digits: characters `2i` and `2i+1` make the Byte at index `i` (R46, R65, R122).
The meanings call it on texts of exactly `2n` characters only, so no index falls outside the text. -/
def hexBytes (n : Nat) (txt : Text) : Vector Byte n :=
  Vector.ofFn fun i : Fin n => pairByte (txt.getD (2 * i.val) 0) (txt.getD (2 * i.val + 1) 0)

end Sys2Proof.Machine
end

