-- ==== Sys2Proof/Syntax.lean ====
section
/-! DEFINITION. The nine operations with the operands each reads: R61 (30_encoding.md), one constructor per row of
spec/opcode_table.json. An `Instr` is R18's command: the operation and the operands that operation reads. -/

namespace Sys2Proof

/-- The operations of R61. Operands have the types of R12; the key is any integer (R64, R102). -/
inductive Instr where
  /-- 0x1 SHIFTENC: `shiftEncrypt(text, key)` (R106). -/
  | shiftenc (txt : Text) (key : Int)
  /-- 0x2 SHIFTDEC: `shiftDecrypt(text, key)` (R107). -/
  | shiftdec (txt : Text) (key : Int)
  /-- 0x3 PARSEHEX: `parseHex(hex)` (R123). -/
  | parsehex (txt : Text)
  /-- 0x4 SUBBYTES: `substitute(state)` (R141). -/
  | subbytes (st : BlockState)
  /-- 0x5 SHIFTROWS: `shiftRows(state)` (R162). -/
  | shiftrows (st : BlockState)
  /-- 0x6 MIXCOLS: `mixColumns(state)` (R176). -/
  | mixcols (st : BlockState)
  /-- 0x7 PARSEWORD: `parseWordHex(hex)` (R126). -/
  | parseword (txt : Text)
  /-- 0x8 NEXTWORD: `nextKeyWord(prevWord, wordFourBack, roundConstant)` (R195). -/
  | nextword (prev four rcon : Word)
  /-- 0x9 FMTBYTE: `formatByte(byte)` (R211). -/
  | fmtbyte (b : Byte)
  deriving DecidableEq, Repr

end Sys2Proof
end

