-- ==== Sys2Proof/WellFormed.lean ====
section
/-! DEFINITION. Which commands the request ports of a chip with the widths `p` can express (30_encoding.md R63, R64;
70_reset_and_hazards.md R256). -/

namespace Sys2Proof

open Config

/-- Every character code is below 2^CHAR_W (R12, R64). -/
def charsFit (p : Widths) (t : Text) : Bool := t.all fun c => decide (c < 2 ^ p.charW)

/-- The length is below 2^LEN_W (R63, R256). -/
def lengthFits (p : Widths) (t : Text) : Bool := decide (t.length < 2 ^ p.lenW)

/-- A text that a text port can carry (R63, R256). -/
def textWf (p : Widths) (t : Text) : Bool := charsFit p t && lengthFits p t

/-- A key that the KEY_W-bit two's-complement port can carry (R63, R64, U10). -/
def keyWf (p : Widths) (k : Int) : Bool :=
  decide (-(2 : Int) ^ (p.keyW - 1) ≤ k) && decide (k < (2 : Int) ^ (p.keyW - 1))

/-- A command that the request ports can express. BlockState, Word and Byte operands fit by their types (R49, R256). -/
def Instr.wf (p : Widths) : Instr → Bool
  | .shiftenc txt key => textWf p txt && keyWf p key
  | .shiftdec txt key => textWf p txt && keyWf p key
  | .parsehex txt => textWf p txt
  | .subbytes _ => true
  | .shiftrows _ => true
  | .mixcols _ => true
  | .parseword txt => textWf p txt
  | .nextword _ _ _ => true
  | .fmtbyte _ => true

end Sys2Proof
end

