-- ==== Sys2Proof/Decode.lean ====
section
/-! DEFINITION. The decoder, the encoder and the operation table (30_encoding.md R60, R61, R68, R69, R74). -/

namespace Sys2Proof

open Config Machine

/-- The nine operations, without operands (R61). -/
inductive Operation where
  | shiftenc | shiftdec | parsehex | subbytes | shiftrows | mixcols | parseword | nextword | fmtbyte
  deriving DecidableEq, Repr

/-- The five operand shapes of R62: T, H, S, K, B. -/
inductive OperandClass where
  | textAndKey | hexText | oneBlock | threeWords | oneByte
  deriving DecidableEq, Repr

/-- One row of spec/opcode_table.json with R61's columns. A command word `c` selects the row when
`c & mask = code` (R74). -/
structure OpRow where
  mnemonic  : String
  mztNames  : List String
  operation : Operation
  code      : BitVec Config.opW
  mask      : BitVec Config.opW
  cls       : OperandClass
  reads     : List RequestPort
  drives    : List ResponsePort
  canFail   : Bool
  deriving DecidableEq, Repr

/-- The rows of the shift cipher (R61, R62, R19). -/
def shiftRowsOfTable : List OpRow :=
  [ ⟨"SHIFTENC", ["shiftEncrypt", "encrypt"], .shiftenc, 0x1, 0xF, .textAndKey, [.txt, .key], [.txtOut], false⟩,
    ⟨"SHIFTDEC", ["shiftDecrypt", "decrypt"], .shiftdec, 0x2, 0xF, .textAndKey, [.txt, .key], [.txtOut], false⟩ ]

/-- The rows of the block steps and the state parser (R61, R62, R19). -/
def blockRowsOfTable : List OpRow :=
  [ ⟨"PARSEHEX", ["parseHex"], .parsehex, 0x3, 0xF, .hexText, [.txt], [.stOut], true⟩,
    ⟨"SUBBYTES", ["substitute"], .subbytes, 0x4, 0xF, .oneBlock, [.stIn], [.stOut], false⟩,
    ⟨"SHIFTROWS", ["shiftRows"], .shiftrows, 0x5, 0xF, .oneBlock, [.stIn], [.stOut], false⟩,
    ⟨"MIXCOLS", ["mixColumns"], .mixcols, 0x6, 0xF, .oneBlock, [.stIn], [.stOut], false⟩ ]

/-- The rows of the word parser, the key schedule and the formatter (R61, R62, R19). -/
def wordRowsOfTable : List OpRow :=
  [ ⟨"PARSEWORD", ["parseWordHex"], .parseword, 0x7, 0xF, .hexText, [.txt], [.wOut], true⟩,
    ⟨"NEXTWORD", ["nextKeyWord", "nextWord"], .nextword, 0x8, 0xF, .threeWords, [.wPrev, .wFour, .wRcon],
      [.wOut, .wRot, .wSub, .wXrc], false⟩,
    ⟨"FMTBYTE", ["formatByte"], .fmtbyte, 0x9, 0xF, .oneByte, [.bIn], [.txtOut], false⟩ ]

/-- The operation table of R61 and spec/opcode_table.json (codes: DESIGN CHOICE, log entry 14). -/
def opTable : List OpRow := shiftRowsOfTable ++ blockRowsOfTable ++ wordRowsOfTable

/-- The row a command word selects, if any (R74). -/
def selectRow (c : BitVec Config.opW) : Option OpRow := opTable.find? fun row => c &&& row.mask == row.code

/-- Why a command is rejected by the decoder. -/
inductive DecodeError where
  /-- `op` is 0x0 or 0xA to 0xF (R68): the machine answers `IllegalOp`. -/
  | unassignedOp (op : BitVec Config.opW)
  deriving DecidableEq, Repr

/-- The operation with its operands taken from the ports it reads, and from no other (R61, R63, R70). -/
def assemble (p : Widths) (o : Operation) (r : Request) : Instr :=
  match o with
  | .shiftenc => .shiftenc (r.text p) (r.keyInt p)
  | .shiftdec => .shiftdec (r.text p) (r.keyInt p)
  | .parsehex => .parsehex (r.text p)
  | .subbytes => .subbytes r.block
  | .shiftrows => .shiftrows r.block
  | .mixcols => .mixcols r.block
  | .parseword => .parseword (r.text p)
  | .nextword => .nextword r.prev r.four r.rcon
  | .fmtbyte => .fmtbyte r.byte

/-- The decoder: compare `op` with the nine codes; on a match the operation with its operands; otherwise rejected
by name (R68, R69, R74). Total on every request, for ports of every width. -/
def decode (p : Widths) (r : Request) : Except DecodeError Instr :=
  match selectRow r.op with
  | some row => .ok (assemble p row.operation r)
  | none => .error (.unassignedOp r.op)

/-- The operation an instruction is (R61). -/
def Instr.operation : Instr → Operation
  | .shiftenc _ _ => .shiftenc
  | .shiftdec _ _ => .shiftdec
  | .parsehex _ => .parsehex
  | .subbytes _ => .subbytes
  | .shiftrows _ => .shiftrows
  | .mixcols _ => .mixcols
  | .parseword _ => .parseword
  | .nextword _ _ _ => .nextword
  | .fmtbyte _ => .fmtbyte

/-- The table's row of an operation. -/
def rowOfOperation (o : Operation) : Option OpRow := opTable.find? fun row => row.operation == o

/-- The code of an operation, read from the table (R61). Every operation has a row, so the 0x0 arm, which is an
unassigned code, is never taken (DESIGN CHOICE, log entry 23). -/
def codeOf (o : Operation) : BitVec Config.opW :=
  match rowOfOperation o with
  | some row => row.code
  | none => 0x0

/-- A text onto the text port (R64). A code of 2^CHAR_W or more is no character of the port and cannot be expressed
(R12, R256): here it gives its low bits, and nothing issues it, for a host issues well-formed commands only (DESIGN
CHOICE, log entry 24). -/
def encodeText (p : Widths) (t : Text) : List Nat := t.map fun c => c % 2 ^ p.charW

/-- A key onto the key port, two's complement (R64). A key outside KEY_W bits cannot be expressed (U10): here it gives
its low bits, and nothing issues it (DESIGN CHOICE, log entry 24). -/
def encodeKey (p : Widths) (k : Int) : Nat := (BitVec.ofInt p.keyW k).toNat

/-- The encoder: the request that expresses a well-formed instruction, with the ports it does not read empty or zero
(R60, R61, R63). An instruction that is not well-formed has no encoding in the spec (U10, R256; DESIGN CHOICE, log
entry 24). -/
def encode (p : Widths) (i : Instr) : Request :=
  let r := Request.bare (codeOf i.operation)
  match i with
  | .shiftenc txt key => { r with txt := encodeText p txt, key := encodeKey p key }
  | .shiftdec txt key => { r with txt := encodeText p txt, key := encodeKey p key }
  | .parsehex txt => { r with txt := encodeText p txt }
  | .subbytes st => { r with stIn := packBlock st }
  | .shiftrows st => { r with stIn := packBlock st }
  | .mixcols st => { r with stIn := packBlock st }
  | .parseword txt => { r with txt := encodeText p txt }
  | .nextword prev four rcon =>
      { r with wPrev := packWord prev, wFour := packWord four, wRcon := packWord rcon }
  | .fmtbyte b => { r with bIn := b }

/-- The request of a command word of the opcode table: `op` is its low OP_W bits (the table's mask is 0xF, R74) and
every operand port is empty or zero (DESIGN CHOICE, log entry 4). -/
def requestOfWord (w : Nat) : Request := Request.bare (BitVec.ofNat Config.opW w)

/-- The instruction the decoder reads from a command word of the opcode table, whose one field is `op` in bits 3..0
(R60, R74). The number of bits is one length for every row (R60), so it selects nothing. The widths are the defaults; with
empty and zero operand ports every width gives the same. -/
def decodeTableWord (_nbits w : Nat) : Option Instr := (decode Widths.default (requestOfWord w)).toOption

end Sys2Proof
end

