-- ==== Sys2Proof/Machine/Flags.lean ====
section
/-! DEFINITION. The only condition information of the hardware: the two error flags inside an InvalidInput response
(10_state.md R23; 41_parse.md R124). There are no persistent flags. Both may be set (DESIGN CHOICE, log entry 13). -/

namespace Sys2Proof.Machine

/-- `err_len = (len(txt) != n)` (R124). -/
def errLen (n : Nat) (txt : Text) : Bool := txt.length != n

/-- `err_char`: some character of the whole text is not a hexadecimal digit (R124). -/
def errChar (txt : Text) : Bool := txt.any fun c => !isHex c

/-- A parser that requires `n` digits fails when either flag is set (R124). -/
def parseFails (n : Nat) (txt : Text) : Bool := errLen n txt || errChar txt

end Sys2Proof.Machine
end

