-- ==== Sys2Proof/Machine/State.lean ====
section
/-! DEFINITION. The machine's state as plain data, its responses, its fault and refusal reasons, and reset
(10_state.md; 00_scope.md R15; 70_reset_and_hazards.md R250). -/

namespace Sys2Proof.Machine

/-- The result of an `Ok` response; its shape is fixed by the operation (R15, R61). -/
inductive Result where
  /-- `txt_out` of SHIFTENC, SHIFTDEC, FMTBYTE. -/
  | text (t : Text)
  /-- `st_out` of PARSEHEX, SUBBYTES, SHIFTROWS, MIXCOLS. -/
  | block (st : BlockState)
  /-- `w_out` of PARSEWORD. -/
  | word (w : Word)
  /-- `w_out`, `w_rot`, `w_sub`, `w_xrc` of NEXTWORD (R195, R196). -/
  | keyWord (out rot sub xrc : Word)
  deriving DecidableEq, Repr

/-- The response type of R15: a tagged union, so that no result can be read from an error response. Lengths are
natural numbers (U11; DESIGN CHOICE, log entry 8). -/
inductive Response where
  /-- Status OK (R67). -/
  | ok (result : Result)
  /-- Status INVALID_INPUT with its four fields (R125, R221). -/
  | invalidInput (expLen actLen : Nat) (errLen errChar : Bool)
  /-- Status ILLEGAL_OP; it records nothing (R223). -/
  | illegalOp
  deriving DecidableEq, Repr

/-- What the world outside does to the core (DESIGN CHOICE, log entries 2 and 11). -/
inductive HostInput where
  /-- The host issues a command (R20, R258). -/
  | command (r : Request)
  /-- A reset between two commands (R250). -/
  | reset
  /-- A command that a reset cuts: it gets no response (R252). -/
  | commandCutByReset (r : Request)
  deriving DecidableEq, Repr

/-- The substitution-table ROM, the only address space (R40): the cells where this chip's table differs from the
default table of R143, addresses strictly rising (PRESUMED, log entry 3). An address it does not list reads as the default. -/
abbrev Memory := List Host.Cell

/-- MZT-CORE has no register, program counter, flag, mode or control register (R21 to R26), so its state is the ROM's
content, which is the spec's parameter SBOX (R10), the chip's open widths (R10), and two fields of the model's own
(DESIGN CHOICE, log entry 2): what the host has issued and what the core has answered. -/
structure State where
  /-- The parameters CHAR_W, KEY_W and LEN_W of this chip (R10; DESIGN CHOICE, log entry 6). Nothing changes them. -/
  widths    : Config.Widths
  /-- The substitution-table ROM (R28, R40). No operation writes it (R42). -/
  rom       : Memory
  /-- The host's commands and resets not yet taken, oldest first. MODEL's own field. -/
  inputs    : List HostInput
  /-- The responses delivered, oldest first: the observation of a run (R260). MODEL's own field. -/
  responses : List Response
  deriving DecidableEq, Repr

/-- Reasons the machine stops with a fault: NONE. "No fatal/process-level errors originate in the core" (R230), every
command gets exactly one response (R15), and a ROM read cannot fault (R41). DEDUCED, log entry 21. Safe: there is
nothing to raise. -/
inductive Fault where
  deriving DecidableEq, Repr

/-- Reasons for which an instruction has no meaning in this model. -/
inductive Refusal where
  /-- An instruction of the opcode table with no meaning yet. No arm of `exec` raises it. Safe. -/
  | notModelled (mnemonic : String)
  deriving DecidableEq, Repr

/-- The machine right after reset: the default widths (R10) and table (R29, R251), nothing issued and nothing
answered (R29: "a model has no response before the first command"). -/
def State.reset : State := { widths := Config.Widths.default, rom := [], inputs := [], responses := [] }

end Sys2Proof.Machine
end

