-- ==== Sys2Proof/Machine/Rom.lean ====
section
/-! DEFINITION. The substitution-table ROM: its default content and its one access, the byte read
(20_memory.md R40 to R44; 42_subbytes.md R142, R143). -/

namespace Sys2Proof.Machine

/-- Row 0x of R143. -/
def sboxRow0 : List Byte :=
  [0x63, 0x7C, 0x77, 0x7B, 0xF2, 0x6B, 0x6F, 0xC5, 0x30, 0x01, 0x67, 0x2B, 0xFE, 0xD7, 0xAB, 0x76]

/-- Row 1x of R143. -/
def sboxRow1 : List Byte :=
  [0xCA, 0x82, 0xC9, 0x7D, 0xFA, 0x59, 0x47, 0xF0, 0xAD, 0xD4, 0xA2, 0xAF, 0x9C, 0xA4, 0x72, 0xC0]

/-- Row 2x of R143. -/
def sboxRow2 : List Byte :=
  [0xB7, 0xFD, 0x93, 0x26, 0x36, 0x3F, 0xF7, 0xCC, 0x34, 0xA5, 0xE5, 0xF1, 0x71, 0xD8, 0x31, 0x15]

/-- Row 3x of R143. -/
def sboxRow3 : List Byte :=
  [0x04, 0xC7, 0x23, 0xC3, 0x18, 0x96, 0x05, 0x9A, 0x07, 0x12, 0x80, 0xE2, 0xEB, 0x27, 0xB2, 0x75]

/-- Row 4x of R143. -/
def sboxRow4 : List Byte :=
  [0x09, 0x83, 0x2C, 0x1A, 0x1B, 0x6E, 0x5A, 0xA0, 0x52, 0x3B, 0xD6, 0xB3, 0x29, 0xE3, 0x2F, 0x84]

/-- Row 5x of R143. -/
def sboxRow5 : List Byte :=
  [0x53, 0xD1, 0x00, 0xED, 0x20, 0xFC, 0xB1, 0x5B, 0x6A, 0xCB, 0xBE, 0x39, 0x4A, 0x4C, 0x58, 0xCF]

/-- Row 6x of R143. -/
def sboxRow6 : List Byte :=
  [0xD0, 0xEF, 0xAA, 0xFB, 0x43, 0x4D, 0x33, 0x85, 0x45, 0xF9, 0x02, 0x7F, 0x50, 0x3C, 0x9F, 0xA8]

/-- Row 7x of R143. -/
def sboxRow7 : List Byte :=
  [0x51, 0xA3, 0x40, 0x8F, 0x92, 0x9D, 0x38, 0xF5, 0xBC, 0xB6, 0xDA, 0x21, 0x10, 0xFF, 0xF3, 0xD2]

/-- Row 8x of R143. -/
def sboxRow8 : List Byte :=
  [0xCD, 0x0C, 0x13, 0xEC, 0x5F, 0x97, 0x44, 0x17, 0xC4, 0xA7, 0x7E, 0x3D, 0x64, 0x5D, 0x19, 0x73]

/-- Row 9x of R143. -/
def sboxRow9 : List Byte :=
  [0x60, 0x81, 0x4F, 0xDC, 0x22, 0x2A, 0x90, 0x88, 0x46, 0xEE, 0xB8, 0x14, 0xDE, 0x5E, 0x0B, 0xDB]

/-- Row Ax of R143. -/
def sboxRowA : List Byte :=
  [0xE0, 0x32, 0x3A, 0x0A, 0x49, 0x06, 0x24, 0x5C, 0xC2, 0xD3, 0xAC, 0x62, 0x91, 0x95, 0xE4, 0x79]

/-- Row Bx of R143. -/
def sboxRowB : List Byte :=
  [0xE7, 0xC8, 0x37, 0x6D, 0x8D, 0xD5, 0x4E, 0xA9, 0x6C, 0x56, 0xF4, 0xEA, 0x65, 0x7A, 0xAE, 0x08]

/-- Row Cx of R143. -/
def sboxRowC : List Byte :=
  [0xBA, 0x78, 0x25, 0x2E, 0x1C, 0xA6, 0xB4, 0xC6, 0xE8, 0xDD, 0x74, 0x1F, 0x4B, 0xBD, 0x8B, 0x8A]

/-- Row Dx of R143. -/
def sboxRowD : List Byte :=
  [0x70, 0x3E, 0xB5, 0x66, 0x48, 0x03, 0xF6, 0x0E, 0x61, 0x35, 0x57, 0xB9, 0x86, 0xC1, 0x1D, 0x9E]

/-- Row Ex of R143. -/
def sboxRowE : List Byte :=
  [0xE1, 0xF8, 0x98, 0x11, 0x69, 0xD9, 0x8E, 0x94, 0x9B, 0x1E, 0x87, 0xE9, 0xCE, 0x55, 0x28, 0xDF]

/-- Row Fx of R143. -/
def sboxRowF : List Byte :=
  [0x8C, 0xA1, 0x89, 0x0D, 0xBF, 0xE6, 0x42, 0x68, 0x41, 0x99, 0x2D, 0x0F, 0xB0, 0x54, 0xBB, 0x16]

/-- The 256 literals of R143 in index order, which are the AES S-box (D13; PRESUMED, log entry 3). -/
def sboxTable : List Byte :=
  sboxRow0 ++ sboxRow1 ++ sboxRow2 ++ sboxRow3 ++ sboxRow4 ++ sboxRow5 ++ sboxRow6 ++ sboxRow7 ++
    sboxRow8 ++ sboxRow9 ++ sboxRowA ++ sboxRowB ++ sboxRowC ++ sboxRowD ++ sboxRowE ++ sboxRowF

/-- The default content of the ROM at address `a`. The table has an entry for every Byte (R40), so the 0 is never
taken (DESIGN CHOICE, log entry 23). -/
def defaultSbox (a : Byte) : Byte := sboxTable.getD a.toNat 0

/-- `MemRead(a, 1) = SBOX[a]` (R14, R41): a listed cell's byte, or the default where none is listed. It is the only
memory access; the address is a Byte, so it is never out of range and the read cannot fault (R40, R41, R55). -/
def Memory.read (m : Memory) (a : Byte) : Byte :=
  match m.lookup a.toNat with
  | some b => b
  | none => defaultSbox a

/-- The canonical form: addresses strictly rising, each one of the 256 of R40, and no cell equal to what an unlisted
address reads as, so that equal tables are equal lists. -/
def Memory.wf (m : Memory) : Bool :=
  decide ((m.map Prod.fst).Pairwise (· < ·)) &&
    m.all fun cell => decide (cell.1 < 256) && cell.2 != defaultSbox (BitVec.ofNat 8 cell.1)

/-- The addresses of the ROM in rising order (R40). -/
def romAddresses : List Nat := List.range 256

/-- The ROM that holds the table `f`: an instantiation of the parameter SBOX (R10, D13), built before the first
command and never written after (R42, R251; DESIGN CHOICE, log entry 17). -/
def Memory.ofTable (f : Byte → Byte) : Memory :=
  romAddresses.filterMap fun a =>
    let b := f (BitVec.ofNat 8 a)
    if b = defaultSbox (BitVec.ofNat 8 a) then none else some (a, b)

end Sys2Proof.Machine
end

