-- ==== Sys2Proof/Machine/Ops.lean ====
section
/-! DEFINITION. The shared operations: delivering a response, of which raising an error is one case
(60_exceptions.md R221, R223, R226), and the host's side of the input queue (R20, R258). -/

namespace Sys2Proof.Machine

/-- Deliver a response. Nothing else changes: there is no state to save, no mode, no handler (R20, R226). -/
def State.answer (s : State) (r : Response) : State := { s with responses := s.responses ++ [r] }

/-- `return Ok(v)` (R14): the command ends with status OK and result `v`. -/
def returnOk (v : Result) (s : State) : Host.Outcome State Fault Refusal := .next (s.answer (.ok v))

/-- `raise InvalidInput(n, len(txt), err_len, err_char)` (R14, R125, R221): the counterpart of taking an exception.
The error is the response of the failing command; no result is produced (R226). After it there is nothing to
restore and no return (R227). -/
def raiseInvalidInput (n : Nat) (txt : Text) (s : State) : Host.Outcome State Fault Refusal :=
  .next (s.answer (.invalidInput n txt.length (errLen n txt) (errChar txt)))

/-- The response to a command whose code is unassigned (R68, R223). -/
def raiseIllegalOp (s : State) : Host.Outcome State Fault Refusal := .next (s.answer .illegalOp)

/-- The host issues an input: it goes behind those issued before it (R51: commands are answered in the order issued). -/
def State.issue (s : State) (x : HostInput) : State := { s with inputs := s.inputs ++ [x] }

/-- The oldest input, and the state with it taken. `none` when the host has issued nothing (R20). -/
def fetchInput (s : State) : Option (HostInput × State) :=
  match s.inputs with
  | [] => none
  | x :: rest => some (x, { s with inputs := rest })

/-- Between commands the core does nothing and holds nothing (R20, R242; DEDUCED, log entry 1). -/
def idle (s : State) : Host.Outcome State Fault Refusal := .next s

/-- A reset has nothing to set and no visible effect (R250). -/
def coreReset (s : State) : Host.Outcome State Fault Refusal := .next s

end Sys2Proof.Machine
end

