-- ==== Sys2Proof/Machine/Format.lean ====
section
/-! DEFINITION. The byte formatter: FMTBYTE (46_format.md R210 to R212). -/

namespace Sys2Proof.Machine

/-- `digit(v)` for `v` in 0..15: '0' to '9', 'A' to 'F' (R211). -/
def hexDigit (v : Nat) : Nat := if v ≤ 9 then 0x30 + v else 0x41 + (v - 10)

/-- `[digit(b[7:4]), digit(b[3:0])]` (R211). -/
def formatByte (b : Byte) : Text := [hexDigit (b.extractLsb 7 4).toNat, hexDigit (b.extractLsb 3 0).toNat]

/-- FMTBYTE (R211). -/
def execFmtbyte (b : Byte) (s : State) : Host.Outcome State Fault Refusal := returnOk (.text (formatByte b)) s

end Sys2Proof.Machine
end

