-- ==== Sys2Proof/Machine/Field.lean ====
section
/-! DEFINITION. GF(2⁸) arithmetic (44_mixcolumns.md R170 to R173) and, for checking the table only, the general
multiplication and the algebraic definition of R144 (42_subbytes.md). -/

namespace Sys2Proof.Machine

/-- Field addition is bitwise XOR (R171). -/
def gfAdd (a b : Byte) : Byte := a ^^^ b

/-- Doubling: shift left by one, then XOR with 0x1B when the bit 7 before the shift was set (R172). -/
def xtime (b : Byte) : Byte := if b.getLsbD 7 then (b <<< 1) ^^^ 0x1B#8 else b <<< 1

/-- Multiplication by 1 (R173). -/
def mul1 (b : Byte) : Byte := b

/-- Multiplication by 2 (R173). -/
def mul2 (b : Byte) : Byte := xtime b

/-- Multiplication by 3 = 2 + 1 (R173). -/
def mul3 (b : Byte) : Byte := gfAdd (xtime b) b

/-- XOR of two Words, byte for byte at equal indices (R13). -/
def xorWord (a b : Word) : Word := Vector.ofFn fun i : Fin 4 => gfAdd a[i] b[i]

/-- XOR of two BlockStates, byte for byte at equal indices (R13). -/
def xorBlock (a b : BlockState) : BlockState := Vector.ofFn fun i : Fin 16 => gfAdd a[i] b[i]

/-- Shift-and-add over the low `n` bits of `b`, lowest first, `a` doubled at each bit. -/
def gmulBits : Nat → Byte → Byte → Byte
  | 0, _, _ => 0#8
  | n + 1, a, b => gfAdd (if b.getLsbD 0 then a else 0#8) (gmulBits n (xtime a) (b >>> 1))

/-- The full field multiplication, shift-and-add using `xtime` (R144). It is no datapath of the hardware (R173): it
serves only to check the table. -/
def gmul (a b : Byte) : Byte := gmulBits 8 a b

/-- The affine map of R144: `b ^ rotl8(b,1) ^ rotl8(b,2) ^ rotl8(b,3) ^ rotl8(b,4) ^ 0x63`. -/
def sboxAffine (b : Byte) : Byte :=
  b ^^^ b.rotateLeft 1 ^^^ b.rotateLeft 2 ^^^ b.rotateLeft 3 ^^^ b.rotateLeft 4 ^^^ 0x63#8

/-- `b` is the inverse R144 uses for `a`: 0 for 0, otherwise the `x` with `gmul(a, x) = 1`. -/
def isSboxInverse (a b : Byte) : Prop := (a = 0#8 ∧ b = 0#8) ∨ gmul a b = 1#8

end Sys2Proof.Machine
end

