-- ==== Sys2Proof/Machine/KeySchedule.lean ====
section
/-! DEFINITION. The key-schedule word: NEXTWORD (45_keyschedule.md R190 to R199). -/

namespace Sys2Proof.Machine

/-- `RotWord([w0, w1, w2, w3]) = [w1, w2, w3, w0]` (R192). -/
def rotWord (w : Word) : Word := #v[w[1], w[2], w[3], w[0]]

/-- `SubWord`: one read of the ROM for each Byte, the same table SUBBYTES reads (R193, R194). -/
def subWord (rom : Memory) (w : Word) : Word := Vector.ofFn fun i : Fin 4 => rom.read w[i]

/-- NEXTWORD (R195): RotWord of `four`, SubWord, XOR with `rcon`, XOR with `prev`, in this order; the response
carries the final word and the three exact intermediates (R196, R199; DESIGN CHOICE, log entry 12). It takes Words and
cannot fail (R190; DESIGN CHOICE, log entry 19). -/
def execNextword (prev four rcon : Word) (s : State) : Host.Outcome State Fault Refusal :=
  let rot := rotWord four
  let sub := subWord s.rom rot
  let xrc := xorWord sub rcon
  let out := xorWord xrc prev
  returnOk (.keyWord out rot sub xrc) s

end Sys2Proof.Machine
end

