-- ==== Sys2Proof/Machine/MixColumns.lean ====
section
/-! DEFINITION. The column-mix step: MIXCOLS (44_mixcolumns.md R174 to R180). -/

namespace Sys2Proof.Machine

/-- Row 0 of the fixed matrix, {2,3,1,1} (R175). -/
def mixFirstRow : Vector Nat 4 := #v[2, 3, 1, 1]

/-- The fixed matrix (R9, R175): "each row is the row above rotated right by one place", so row `i` is row 0 rotated
right by `i`, and its entry in column `j` is row 0's in column `(j - i) mod 4`. -/
def mixCoefficient (i j : Fin 4) : Nat := mixFirstRow[j - i]

/-- `mixColumn(a, b, c, d)` of R177. -/
def mixColumn (v : Word) : Word :=
  let a := v[0]
  let b := v[1]
  let c := v[2]
  let d := v[3]
  #v[mul2 a ^^^ mul3 b ^^^ c ^^^ d,
     a ^^^ mul2 b ^^^ mul3 c ^^^ d,
     a ^^^ b ^^^ mul2 c ^^^ mul3 d,
     mul3 a ^^^ b ^^^ c ^^^ mul2 d]

/-- Each of the four columns is replaced by `mixColumn` of it (R174, R176, R178). -/
def mixColumns (st : BlockState) : BlockState :=
  Vector.ofFn fun i : Fin 16 => (mixColumn (column st (colOf i)))[rowOf i]

/-- MIXCOLS (R176). -/
def execMixcols (st : BlockState) (s : State) : Host.Outcome State Fault Refusal :=
  returnOk (.block (mixColumns st)) s

end Sys2Proof.Machine
end

