-- ==== Sys2Proof/Machine/Parse.lean ====
section
/-! DEFINITION. The hexadecimal parsers: PARSEHEX and PARSEWORD (41_parse.md R120 to R129). No character is removed
from the text before the checks (R120, D9; DESIGN CHOICE, log entry 15). -/

namespace Sys2Proof.Machine

/-- PARSEHEX (R123): 32 digits make a BlockState; anything else raises InvalidInput. -/
def execParsehex (txt : Text) (s : State) : Host.Outcome State Fault Refusal :=
  if parseFails 32 txt then raiseInvalidInput 32 txt s else returnOk (.block (hexBytes 16 txt)) s

/-- PARSEWORD (R126): 8 digits make a Word; anything else raises InvalidInput. -/
def execParseword (txt : Text) (s : State) : Host.Outcome State Fault Refusal :=
  if parseFails 8 txt then raiseInvalidInput 8 txt s else returnOk (.word (hexBytes 4 txt)) s

end Sys2Proof.Machine
end

