-- ==== Sys2Proof/Machine/ShiftCipher.lean ====
section
/-! DEFINITION. The shift cipher: SHIFTENC and SHIFTDEC (40_shiftcipher.md R100 to R111). -/

namespace Sys2Proof.Machine

/-- `fmod(n, m)`: the floor-style modulo, the `r` in 0..m-1 with `n - r` divisible by `m` (R13). -/
def fmod (n : Int) (m : Nat) : Nat := (n % (m : Int)).toNat

/-- The effective key `k = fmod(key, 26)` (R102). -/
def effectiveKey (key : Int) : Nat := fmod key 26

/-- The direction of a shift (R105). -/
inductive Direction where
  | encrypt | decrypt
  deriving DecidableEq, Repr

/-- `dir` as R105 writes it: +1 to encrypt, -1 to decrypt. -/
def Direction.sign : Direction → Int
  | .encrypt => 1
  | .decrypt => -1

/-- An uppercase Latin letter, 'A' to 'Z' (R101). -/
def isUpper (c : Nat) : Bool := decide (0x41 ≤ c) && decide (c ≤ 0x5A)

/-- A lowercase Latin letter, 'a' to 'z' (R101). -/
def isLower (c : Nat) : Bool := decide (0x61 ≤ c) && decide (c ≤ 0x7A)

/-- `shiftChar(c, k, dir)` of R105: a letter is moved within its case, every other character passes through. -/
def shiftChar (c k : Nat) (dir : Direction) : Nat :=
  if isUpper c then 0x41 + fmod (((c : Int) - 0x41) + dir.sign * k) 26
  else if isLower c then 0x61 + fmod (((c : Int) - 0x61) + dir.sign * k) 26
  else c

/-- The text, character by character, with the effective key (R100, R106, R107). -/
def shiftText (dir : Direction) (txt : Text) (key : Int) : Text :=
  txt.map fun c => shiftChar c (effectiveKey key) dir

/-- The lookup table `DEC_k[j] = fmod(j - k, 26)`, `j` in 0..25, that R111 permits a decoder to hold (DEDUCED,
log entry 18). -/
def decTable (k : Nat) : List Nat := (List.range 26).map fun j : Nat => fmod ((j : Int) - (k : Int)) 26

/-- The table-lookup decoder of R111: `base(c) + DEC_k[pos(c)]`. The normative function is `shiftChar`. -/
def decodeCharByTable (c k : Nat) : Nat :=
  if isUpper c then 0x41 + (decTable k).getD (c - 0x41) 0
  else if isLower c then 0x61 + (decTable k).getD (c - 0x61) 0
  else c

/-- SHIFTENC (R106). -/
def execShiftenc (txt : Text) (key : Int) (s : State) : Host.Outcome State Fault Refusal :=
  returnOk (.text (shiftText .encrypt txt key)) s

/-- SHIFTDEC (R107). -/
def execShiftdec (txt : Text) (key : Int) (s : State) : Host.Outcome State Fault Refusal :=
  returnOk (.text (shiftText .decrypt txt key)) s

end Sys2Proof.Machine
end

