-- ==== Sys2Proof/Machine/ShiftRows.lean ====
section
/-! DEFINITION. The row-shift step: SHIFTROWS (43_shiftrows.md R160 to R165). -/

namespace Sys2Proof.Machine

/-- Where output lane `i` comes from: row `r`, column `(c + r) mod 4` of the input, for `i` in row `r`, column `c`
(R161, R162). -/
def shiftRowsSource (i : Fin 16) : Fin 16 :=
  idx (rowOf i) ⟨((colOf i).val + (rowOf i).val) % 4, Nat.mod_lt _ (by decide)⟩

/-- `out[r + 4*c] = st[r + 4*((c + r) mod 4)]` (R162). -/
def shiftRows (st : BlockState) : BlockState := Vector.ofFn fun i : Fin 16 => st[shiftRowsSource i]

/-- SHIFTROWS (R162). -/
def execShiftrows (st : BlockState) (s : State) : Host.Outcome State Fault Refusal :=
  returnOk (.block (shiftRows st)) s

end Sys2Proof.Machine
end

