-- ==== Sys2Proof/Machine/SubBytes.lean ====
section
/-! DEFINITION. The substitution step: SUBBYTES (42_subbytes.md R140, R141, R146). -/

namespace Sys2Proof.Machine

/-- `out[i] = MemRead(st[i], 1)`: sixteen independent reads of the ROM (R43, R141, R146). -/
def subBytes (rom : Memory) (st : BlockState) : BlockState := Vector.ofFn fun i : Fin 16 => rom.read st[i]

/-- SUBBYTES (R141). -/
def execSubbytes (st : BlockState) (s : State) : Host.Outcome State Fault Refusal :=
  returnOk (.block (subBytes s.rom st)) s

end Sys2Proof.Machine
end

