-- ==== Sys2Proof/Machine/Dispatch.lean ====
section
/-! DEFINITION. One arm per operation of 30_encoding.md R61. -/

namespace Sys2Proof.Machine

/-- The meaning of one command (R20, R61): one direct call for each operation. -/
def exec (i : Instr) (s : State) : Host.Outcome State Fault Refusal :=
  match i with
  | .shiftenc txt key => Sys2Proof.Machine.execShiftenc txt key s
  | .shiftdec txt key => Sys2Proof.Machine.execShiftdec txt key s
  | .parsehex txt => Sys2Proof.Machine.execParsehex txt s
  | .subbytes st => Sys2Proof.Machine.execSubbytes st s
  | .shiftrows st => Sys2Proof.Machine.execShiftrows st s
  | .mixcols st => Sys2Proof.Machine.execMixcols st s
  | .parseword txt => Sys2Proof.Machine.execParseword txt s
  | .nextword prev four rcon => Sys2Proof.Machine.execNextword prev four rcon s
  | .fmtbyte b => Sys2Proof.Machine.execFmtbyte b s

end Sys2Proof.Machine
end

