-- ==== Sys2Proof/Machine/Serve.lean ====
section
/-! DEFINITION. What the core does with one input of the host (30_encoding.md R69; 70_reset_and_hazards.md R250, R252). -/

namespace Sys2Proof.Machine

/-- A command is decoded and run, or answered `IllegalOp` (R68, R69; DESIGN CHOICE, log entry 9). A reset does nothing
(R250). A command that a reset cuts gets no response and has no effect, so the host may issue it again (R252; DESIGN
CHOICE, log entry 11). -/
def serve (x : HostInput) (s : State) : Host.Outcome State Fault Refusal :=
  match x with
  | .command r =>
      match decode s.widths r with
      | .ok i => exec i s
      | .error _ => raiseIllegalOp s
  | .reset => coreReset s
  | .commandCutByReset _ => coreReset s

/-- The state in which the host's next input is the command of a table word: the command is put before all others
(DESIGN CHOICE, log entry 5). -/
def State.issueWordFirst (s : State) (w : Nat) : State :=
  { s with inputs := .command (requestOfWord w) :: s.inputs }

end Sys2Proof.Machine
end

