-- ==== Sys2Proof/Machine/Step.lean ====
section
/-! DEFINITION. One step: one input of the host (10_state.md R20). -/

namespace Sys2Proof.Machine

/-- Take the oldest input and serve it; with none issued the core does nothing (R20, R242). -/
def step (s : State) : Host.Outcome State Fault Refusal :=
  match fetchInput s with
  | some (x, s') => serve x s'
  | none => idle s

/-- `s` with the command of a table word as the host's next input. MZT-CORE fetches nothing (R22): a program comes to
run by the host's issuing commands, and this stands for that (DESIGN CHOICE, log entry 5). -/
def State.withFetchWord (s : State) (_nbits w : Nat) : State := s.issueWordFirst w

end Sys2Proof.Machine
end

