-- ==== Sys2Proof/Machine/HostProgram.lean ====
section
/-! DEFINITION. The host's side of a program: R72's lines (one command a line, a name bound to its `Ok` result, the
program ending at the first response that is not `Ok`) and R73's pseudo-operations (30_encoding.md; 70_reset_and_hazards.md
R255, R260). The core knows nothing of them. -/

namespace Sys2Proof.Machine

/-- The values a host variable or a literal argument may hold (R72). Variables are numbers here, not names (DESIGN CHOICE, log
entry 22). -/
inductive HostValue where
  | text (t : Text)
  | key (k : Int)
  | block (st : BlockState)
  | word (w : Word)
  | byte (b : Byte)
  | keyWord (out rot sub xrc : Word)
  deriving DecidableEq, Repr

/-- The fields of NEXTWORD's bound record `{out, rot, sub, xrc}` (R72). -/
inductive KeyField where
  | out | rot | sub | xrc
  deriving DecidableEq, Repr

/-- An argument: a literal, a bound variable, a field of a bound record (`k.out`), or one Byte of a value (`st[i]`). -/
inductive HostArg where
  | lit (v : HostValue)
  | var (x : Nat)
  | fieldOf (a : HostArg) (f : KeyField)
  | byteOf (a : HostArg) (i : Nat)
  deriving DecidableEq, Repr

/-- One line `target = MNEMONIC arg, arg, ...` (R72). -/
structure HostLine where
  target    : Nat
  operation : Operation
  args      : List HostArg
  deriving DecidableEq, Repr

/-- The host's bindings, the newest first. -/
abbrev HostEnv := List (Nat × HostValue)

/-- The value an `Ok` result binds (R72). -/
def HostValue.ofResult : Result → HostValue
  | .text t => .text t
  | .block st => .block st
  | .word w => .word w
  | .keyWord out rot sub xrc => .keyWord out rot sub xrc

/-- The value of an argument; `none` when a variable is not bound or the value has no such part. -/
def HostArg.eval (env : HostEnv) : HostArg → Option HostValue
  | .lit v => some v
  | .var x => env.lookup x
  | .fieldOf a f =>
      match a.eval env, f with
      | some (.keyWord out _ _ _), .out => some (.word out)
      | some (.keyWord _ rot _ _), .rot => some (.word rot)
      | some (.keyWord _ _ sub _), .sub => some (.word sub)
      | some (.keyWord _ _ _ xrc), .xrc => some (.word xrc)
      | _, _ => none
  | .byteOf a i =>
      match a.eval env with
      | some (.block st) => st[i]?.map HostValue.byte
      | some (.word w) => w[i]?.map HostValue.byte
      | _ => none

/-- The command of a line whose arguments have these values, in R72's argument order. -/
def buildCommand : Operation → List HostValue → Option Instr
  | .shiftenc, [.text t, .key k] => some (.shiftenc t k)
  | .shiftdec, [.text t, .key k] => some (.shiftdec t k)
  | .parsehex, [.text t] => some (.parsehex t)
  | .subbytes, [.block st] => some (.subbytes st)
  | .shiftrows, [.block st] => some (.shiftrows st)
  | .mixcols, [.block st] => some (.mixcols st)
  | .parseword, [.text t] => some (.parseword t)
  | .nextword, [.word prev, .word four, .word rcon] => some (.nextword prev four rcon)
  | .fmtbyte, [.byte b] => some (.fmtbyte b)
  | _, _ => none

/-- The command a line issues on ports of the widths `p`. `none`, and then the line is not issued: when an argument is
not bound (R255), and when the ports cannot carry the command (a key outside KEY_W bits, a character code of 2^CHAR_W
or more, a text of 2^LEN_W characters or more), which U10, U11 and R256 say cannot be expressed (that the program then
ends: DESIGN CHOICE, log entry 24). -/
def HostLine.command (p : Config.Widths) (l : HostLine) (env : HostEnv) : Option Instr :=
  match l.args.mapM fun a => a.eval env with
  | some vs => (buildCommand l.operation vs).filter fun i => i.wf p
  | none => none

/-- Run a program from a state in which nothing is issued: each line is issued on the request ports and answered by
one step; an `Ok` result is bound; any other response binds nothing and ends the program (R72, R260). A line that the
host cannot issue ends it too (DESIGN CHOICE, log entries 22 and 24). -/
def runProgram : List HostLine → HostEnv → State → HostEnv × State
  | [], env, s => (env, s)
  | l :: ls, env, s =>
    match l.command s.widths env with
    | none => (env, s)
    | some i =>
      match step (s.issue (.command (encode s.widths i))) with
      | .next s' =>
        match s'.responses.getLast? with
        | some (.ok v) => runProgram ls ((l.target, HostValue.ofResult v) :: env) s'
        | _ => (env, s')
      | _ => (env, s)

/-- The sixteen lines `FMTBYTE a[0]` to `FMTBYTE a[15]` of `FMTSTATE a` (R73 b). The spec names no variables for the
single results; the lines bind them to `target` to `target + 15`, so a variable argument in that range would be
overwritten midway (DESIGN CHOICE, log entry 22). `runFmtState` gives the lines a literal and keeps none of these. -/
def fmtStateLines (target : Nat) (a : HostArg) : List HostLine :=
  (List.range 16).map fun i => ⟨target + i, .fmtbyte, [.byteOf a i]⟩

/-- The four lines `FMTBYTE a[0]` to `FMTBYTE a[3]` of `FMTWORD a` (R73 b), bound to `target` to `target + 3` in the same
way (DESIGN CHOICE, log entry 22). -/
def fmtWordLines (target : Nat) (a : HostArg) : List HostLine :=
  (List.range 4).map fun i => ⟨target + i, .fmtbyte, [.byteOf a i]⟩

/-- `ROUNDSTEPS a` is `MIXCOLS (SHIFTROWS (SUBBYTES a))` (R73 c): three lines. The spec names no
variables for the two inner results; the lines bind them to `target` and `target + 1`, and the result to `target + 2`
(DESIGN CHOICE, log entry 22). -/
def roundStepsLines (target : Nat) (a : HostArg) : List HostLine :=
  [⟨target, .subbytes, [a]⟩, ⟨target + 1, .shiftrows, [.var target]⟩, ⟨target + 2, .mixcols, [.var (target + 1)]⟩]

/-- The texts of the `Ok` responses, concatenated in order: how a host joins the results of FMTSTATE or FMTWORD (R73,
R210). -/
def joinedTexts (rs : List Response) : Text :=
  rs.flatMap fun r =>
    match r with
    | .ok (.text t) => t
    | _ => []

/-- `target = FMTSTATE a` or `target = FMTWORD a`, with `lines` the lines of the one or the other. The argument is
evaluated once, before the first line; the results of the lines get no variable; and when every line is answered
`target` is bound to the joined text, as programs P1 and P2 write it (95_test_vectors.md). Which variables are bound,
and that the argument is evaluated once, is the model's choice (DESIGN CHOICE, log entry 22). -/
def runFormat (lines : HostArg → List HostLine) (target : Nat) (a : HostArg) (env : HostEnv) (s : State) :
    HostEnv × State :=
  match a.eval env with
  | none => (env, s)
  | some v =>
    let t := (runProgram (lines (.lit v)) [] s).2
    let new := t.responses.drop s.responses.length
    if new.length = (lines (.lit v)).length then ((target, .text (joinedTexts new)) :: env, t) else (env, t)

/-- `target = FMTSTATE a` (R73 b). -/
def runFmtState (target : Nat) (a : HostArg) (env : HostEnv) (s : State) : HostEnv × State :=
  runFormat (fmtStateLines 0) target a env s

/-- `target = FMTWORD a` (R73 b). -/
def runFmtWord (target : Nat) (a : HostArg) (env : HostEnv) (s : State) : HostEnv × State :=
  runFormat (fmtWordLines 0) target a env s

end Sys2Proof.Machine
end

