-- ==== Sys2Proof/Machine/RomReads.lean ====
section
/-! DEFINITION. Which addresses of the ROM each operation reads (20_memory.md R43; 45_keyschedule.md R194). -/

namespace Sys2Proof.Machine

/-- The ROM addresses a command reads: sixteen for SUBBYTES, four for NEXTWORD, none for the other seven (R43, R194).
Their order cannot be observed (R44). -/
def romReads : Instr → List Byte
  | .shiftenc _ _ => []
  | .shiftdec _ _ => []
  | .parsehex _ => []
  | .subbytes st => st.toList
  | .shiftrows _ => []
  | .mixcols _ => []
  | .parseword _ => []
  | .nextword _ four _ => (rotWord four).toList
  | .fmtbyte _ => []

end Sys2Proof.Machine
end

