-- ==== Sys2Proof/Machine/Drive.lean ====
section
/-! DEFINITION. The port-level picture of a response (30_encoding.md R63, R66, R67, R70; 60_exceptions.md R221, R224),
for a chip with the widths `p`. -/

namespace Sys2Proof.Machine

open Config

/-- The response ports with no result and no error field driven. -/
def ResponsePorts.bare (status : BitVec 2) : ResponsePorts :=
  { status := status, expLen := none, actLen := none, errLen := none, errChar := none, txtOut := none,
    stOut := none, wOut := none, wRot := none, wSub := none, wXrc := none }

/-- A length on a LEN_W-bit port. A length that does not fit cannot be expressed and drives nothing (R63, U11; DESIGN
CHOICE, log entry 8). -/
def lengthOut (p : Widths) (n : Nat) : Option Nat := if n < 2 ^ p.lenW then some n else none

/-- A text on a text port. A text that does not fit cannot be expressed and drives nothing (R63, R256; DESIGN CHOICE,
log entry 8). -/
def textOut (p : Widths) (t : Text) : Option (List Nat) := if textWf p t then some t else none

/-- The ports driven by a result (R63, R66). -/
def Result.drive (p : Widths) (v : Result) : ResponsePorts :=
  let ports := ResponsePorts.bare 0
  match v with
  | .text t => { ports with txtOut := textOut p t }
  | .block st => { ports with stOut := some (packBlock st) }
  | .word w => { ports with wOut := some (packWord w) }
  | .keyWord out rot sub xrc =>
      { ports with wOut := some (packWord out), wRot := some (packWord rot), wSub := some (packWord sub),
                   wXrc := some (packWord xrc) }

/-- The response ports for a response: status 0, 1 or 2 (R67) and exactly the ports R63 lists for it (R70, R221,
R223). -/
def Response.drive (p : Widths) : Response → ResponsePorts
  | .ok v => v.drive p
  | .invalidInput expLen actLen errLen errChar =>
      { ResponsePorts.bare 1 with
        expLen := lengthOut p expLen, actLen := lengthOut p actLen,
        errLen := some (BitVec.ofBool errLen), errChar := some (BitVec.ofBool errChar) }
  | .illegalOp => ResponsePorts.bare 2

/-- Is a response port driven? -/
def ResponsePorts.isDriven (ports : ResponsePorts) : ResponsePort → Bool
  | .expLen => ports.expLen.isSome
  | .actLen => ports.actLen.isSome
  | .errLen => ports.errLen.isSome
  | .errChar => ports.errChar.isSome
  | .txtOut => ports.txtOut.isSome
  | .stOut => ports.stOut.isSome
  | .wOut => ports.wOut.isSome
  | .wRot => ports.wRot.isSome
  | .wSub => ports.wSub.isSome
  | .wXrc => ports.wXrc.isSome

/-- The response at hand: the one that the step from `s` delivers, if it delivers one. The core holds no response
between commands (R20, R21). -/
def State.responseAtHand (s : State) : Option Response :=
  match step s with
  | .next t => (t.responses.drop s.responses.length).head?
  | .fault _ => none
  | .refused _ => none

/-- The response outputs during the step from `s`: those of the response at hand. With none at hand (no command issued,
a reset, a command that a reset cuts) they carry no value, neither zero nor that of an earlier response: before the
first command R29 says so, and at every other such moment the model carries R70 and U8 over (DEDUCED, log entry 10). -/
def State.outputs (s : State) : Option ResponsePorts := s.responseAtHand.map (Response.drive s.widths)

end Sys2Proof.Machine
end

