-- ==== Sys2Proof/Safety.lean ====
section
/-! DEFINITION. What counts as a safe run: the invariant of the machine's states and the states that can be reached. -/

namespace Sys2Proof.Machine

open Config

/-- A text result fits a text port (R105, R256). -/
def Result.legal (p : Widths) : Result → Bool
  | .text t => textWf p t
  | .block _ => true
  | .word _ => true
  | .keyWord _ _ _ _ => true

/-- A response the spec allows. An InvalidInput requires 32 or 8 digits, its `err_len` is set exactly when the lengths
differ, and at least one of its flags is set (R221, R224). -/
def Response.legal (p : Widths) : Response → Bool
  | .ok v => v.legal p
  | .invalidInput expLen actLen errLen errChar =>
      (expLen == 32 || expLen == 8) && decide (actLen < 2 ^ p.lenW) &&
        (errLen == (actLen != expLen)) && (errLen || errChar)
  | .illegalOp => true

/-- A request the ports can carry: its text has fewer than 2^LEN_W characters, each of CHAR_W bits, and its key port
holds KEY_W bits (R63, R64, R256). -/
def Request.expressible (p : Widths) (r : Request) : Bool := textWf p r.txt && decide (r.key < 2 ^ p.keyW)

/-- An input the host can make. -/
def HostInput.expressible (p : Widths) : HostInput → Bool
  | .command r => r.expressible p
  | .reset => true
  | .commandCutByReset r => r.expressible p

/-- The table is a bijection on the 256 Byte values (R10, R142). -/
def Memory.isBijection (m : Memory) : Prop := Function.Bijective m.read

/-- The invariant: the widths meet their constraints, the ROM is in canonical form and holds a bijection, what the host
has issued fits the ports, and every response delivered is one the spec allows. -/
structure State.Inv (s : State) : Prop where
  widthsWf : s.widths.wf = true
  romWf : s.rom.wf = true
  romBijective : s.rom.isBijection
  inputsExpressible : ∀ x ∈ s.inputs, x.expressible s.widths = true
  responsesLegal : ∀ r ∈ s.responses, r.legal s.widths = true

/-- The states of a machine with some widths and some bijective table (R10), a host that issues what the ports can carry (R256, R258),
and the core's steps. -/
inductive Reachable : State → Prop where
  | reset : Reachable State.reset
  | powerOn (p : Widths) (hp : p.wf = true) (f : Byte → Byte) (hf : Function.Bijective f) :
      Reachable { State.reset with widths := p, rom := Memory.ofTable f }
  | issue (s : State) (x : HostInput) (hs : Reachable s) (hx : x.expressible s.widths = true) : Reachable (s.issue x)
  | step (s t : State) (hs : Reachable s) (h : Machine.step s = .next t) : Reachable t

/-- `k` steps in a row; it goes on only through next states. -/
def runSteps : Nat → State → Host.Outcome State Fault Refusal
  | 0, s => .next s
  | k + 1, s =>
    match step s with
    | .next t => runSteps k t
    | .fault r => .fault r
    | .refused r => .refused r

/-- The shape of result R61 fixes for each operation (R15). -/
def Result.hasShape (o : Operation) (v : Result) : Bool :=
  match o, v with
  | .shiftenc, .text _ => true
  | .shiftdec, .text _ => true
  | .parsehex, .block _ => true
  | .subbytes, .block _ => true
  | .shiftrows, .block _ => true
  | .mixcols, .block _ => true
  | .parseword, .word _ => true
  | .nextword, .keyWord _ _ _ _ => true
  | .fmtbyte, .text _ => true
  | _, _ => false

/-- Is the input a command that is not cut by a reset? -/
def HostInput.isCommand : HostInput → Bool
  | .command _ => true
  | .reset => false
  | .commandCutByReset _ => false

/-- The response an input gets when it is the only one a core with these widths and this table ever sees; none for a
reset or a cut command (R250, R252). -/
def answerAlone (p : Widths) (rom : Memory) (x : HostInput) : Option Response :=
  match step { widths := p, rom := rom, inputs := [x], responses := [] } with
  | .next t => t.responses.head?
  | .fault _ => none
  | .refused _ => none

/-- Upper-casing of hexadecimal digits: 'a'..'f' to 'A'..'F', every other code as it is (R212 b). -/
def upperDigit (c : Nat) : Nat := if 0x61 ≤ c ∧ c ≤ 0x66 then c - 0x20 else c

end Sys2Proof.Machine
end

