-- ==== Sys2Proof/Certificates/Slice0/Obligations.lean ====
section
/-! DEFINITION. The statements for the provers, from the numbered rules of spec/. Each says which rule it formalises.
`s` is any state: any widths in `s.widths`, any table in `s.rom`, any inputs issued, any responses already delivered; `p`
is any choice of the widths CHAR_W, KEY_W, LEN_W. -/

open Sys2Proof Sys2Proof.Machine Sys2Proof.Config

/-! ## The machine -/

/-- What reset leaves: the default widths (R10; log entry 6), the default table of R143 (R29; the content is the spec's
decision D13, log entry 3), and in the model's own two fields nothing issued and nothing answered (log entry 2), so no
response output (R29). -/
def Obligations.ResetLeavesTheDefaultTable : Prop :=
  State.reset.widths = { charW := 8, keyW := 32, lenW := 16 } ∧
  (∀ a : Byte, State.reset.rom.read a = sboxTable.getD a.toNat 0) ∧
  State.reset.inputs = [] ∧ State.reset.responses = [] ∧ State.reset.outputs = none

/-- The invariant holds at reset. -/
def Obligations.ResetSatisfiesTheInvariant : Prop := State.reset.Inv

/-- Every step keeps the invariant: the widths stay legal (R10), the ROM stays canonical and a bijection (R42, R142),
what is left to answer fits the ports, and every response is one the spec allows (R221, R224, R105; the fields of an
InvalidInput are the spec's decision D8, log entry 13). -/
def Obligations.StepKeepsTheInvariant : Prop :=
  ∀ s t : State, s.Inv → step s = .next t → t.Inv

/-- Every state that a machine with legal widths and a bijective table reaches, under a host that issues what the ports
can carry, satisfies the invariant (R10, R142, R251, R256). -/
def Obligations.ReachableStatesSatisfyTheInvariant : Prop :=
  ∀ s : State, Reachable s → s.Inv

/-- A step runs the decoded command: the command is taken from the inputs, and the rest is the operation's own effect
(R20, R69). -/
def Obligations.StepRunsTheDecodedCommand : Prop :=
  ∀ (s : State) (r : Request) (rest : List HostInput) (i : Instr),
    s.inputs = .command r :: rest → decode s.widths r = .ok i → step s = exec i { s with inputs := rest }

/-- Without a command the core does nothing (R20, R242; log entry 1): with nothing issued it idles, a reset has no
effect (R250), and a command cut by a reset has no response and no effect (R252; the spec's decision D14, log entry 11). -/
def Obligations.WithoutACommandNothingChanges : Prop :=
  (∀ s : State, s.inputs = [] → step s = .next s) ∧
  (∀ (s : State) (rest : List HostInput), s.inputs = .reset :: rest →
    step s = .next { s with inputs := rest }) ∧
  (∀ (s : State) (r : Request) (rest : List HostInput), s.inputs = .commandCutByReset r :: rest →
    step s = .next { s with inputs := rest })

/-- R15: every command yields exactly one response, one of the three shapes, and the shape of an `Ok` result is fixed
by the operation. Nothing else changes. That a command that does not decode gets `IllegalOp` is the spec's decision D10
(R68, R223; log entry 9). -/
def Obligations.EveryCommandGetsExactlyOneResponse : Prop :=
  ∀ (s : State) (r : Request) (rest : List HostInput), s.inputs = .command r :: rest →
    ∃ resp : Response,
      step s = .next { s with inputs := rest, responses := s.responses ++ [resp] } ∧
      (∀ (i : Instr) (v : Result), decode s.widths r = .ok i → resp = .ok v → v.hasShape i.operation = true) ∧
      (∀ e : DecodeError, decode s.widths r = .error e → resp = .illegalOp)

/-- R30: the response is a function of the operation code and of the operands that operation reads, and of nothing
else: two states of chips with the same widths and table, whatever their histories, and two requests that agree on the code and on the
ports R61 lists for it, get the same response. -/
def Obligations.ResponseDependsOnlyOnTheCommand : Prop :=
  ∀ (s s' : State) (r r' : Request) (rest rest' : List HostInput),
    s.widths = s'.widths → (∀ a : Byte, s.rom.read a = s'.rom.read a) →
    s.inputs = .command r :: rest → s'.inputs = .command r' :: rest' →
    r.op = r'.op →
    (∀ row : OpRow, selectRow r.op = some row → ∀ p ∈ row.reads, r.agreeOn r' p) →
    ∃ resp : Response,
      step s = .next { s with inputs := rest, responses := s.responses ++ [resp] } ∧
      step s' = .next { s' with inputs := rest', responses := s'.responses ++ [resp] }

/-- Every one of the nine operations completes in every state, and its response depends on the table only through the
addresses of R43 and R194: the sixteen lanes for SUBBYTES, the four rotated lanes for NEXTWORD, none for the rest. -/
def Obligations.OnlyTheListedTableEntriesAreRead : Prop :=
  (∀ st : BlockState, romReads (.subbytes st) = (List.finRange 16).map fun i => st[i]) ∧
  (∀ prev four rcon : Word, romReads (.nextword prev four rcon) = [four[1], four[2], four[3], four[0]]) ∧
  (∀ i : Instr, i.operation ≠ .subbytes → i.operation ≠ .nextword → romReads i = []) ∧
  ∀ (i : Instr) (s s' : State), (∀ a ∈ romReads i, s.rom.read a = s'.rom.read a) →
    ∃ resp : Response,
      exec i s = .next { s with responses := s.responses ++ [resp] } ∧
      exec i s' = .next { s' with responses := s'.responses ++ [resp] }

/-- R42: there is no writable memory. No step (so no operation and no reset) and no host action changes the table. -/
def Obligations.NothingWritesTheTable : Prop :=
  (∀ s t : State, step s = .next t → t.rom = s.rom ∧ ∀ a : Byte, t.rom.read a = s.rom.read a) ∧
  (∀ (i : Instr) (s t : State), exec i s = .next t → t.rom = s.rom) ∧
  (∀ (s : State) (x : HostInput), (s.issue x).rom = s.rom)

/-- The frame of all nine operations: every byte of the ROM, the widths, everything still to be answered and every
earlier response are unchanged, and exactly one response is added (R20, R31, R42, R226). -/
def Obligations.FrameOfEveryOperation : Prop :=
  ∀ (i : Instr) (s t : State), exec i s = .next t →
    (∀ a : Byte, t.rom.read a = s.rom.read a) ∧ t.rom = s.rom ∧ t.widths = s.widths ∧ t.inputs = s.inputs ∧
    ∃ resp : Response, t.responses = s.responses ++ [resp]

/-- A run answers everything issued, in order, each command exactly as if it were the only one the core ever saw
(R20, R30, R51, R258, R260). That every command is answered is the spec's decision D24 (log entry 16). -/
def Obligations.RunAnswersEveryCommandInOrder : Prop :=
  ∀ s : State,
    runSteps s.inputs.length s =
      .next { s with inputs := [], responses := s.responses ++ s.inputs.filterMap (answerAlone s.widths s.rom) }

/-- Several hosts: however their inputs are interleaved, the responses are the same up to that interleaving
(R51, R240; arbitration is left open by D19, log entry 2). -/
def Obligations.InterleavingOfHostsDoesNotMatter : Prop :=
  ∀ s s' : State, s.widths = s'.widths → s.rom = s'.rom → s.inputs.Perm s'.inputs →
    ∃ (t t' : State) (new new' : List Response),
      runSteps s.inputs.length s = .next t ∧
      runSteps s'.inputs.length s' = .next t' ∧
      t.responses = s.responses ++ new ∧ t'.responses = s'.responses ++ new' ∧ new.Perm new'

/-- The input after another one, failed or not, is served exactly as if the first had never been issued (R227, R226,
R30). -/
def Obligations.AnInputIsServedAsIfTheOneBeforeWereNeverIssued : Prop :=
  ∀ (s t : State) (x y : HostInput) (rest : List HostInput),
    s.inputs = x :: y :: rest → step s = .next t →
    ∃ (u u' : State) (new : List Response),
      step t = .next u ∧ step { s with inputs := y :: rest } = .next u' ∧
      u.widths = u'.widths ∧ u.rom = u'.rom ∧ u.inputs = u'.inputs ∧
      u.responses = t.responses ++ new ∧ u'.responses = s.responses ++ new

/-- Resets between commands, and commands cut by a reset, leave no trace: the run without them ends in the same state
(R250, R252; the spec's decision D14, log entry 11). -/
def Obligations.ResetsLeaveNoTrace : Prop :=
  ∀ s : State, ∃ t : State,
    runSteps s.inputs.length s = .next t ∧
    runSteps (s.inputs.filter HostInput.isCommand).length
      { s with inputs := s.inputs.filter HostInput.isCommand } = .next t

/-! ## Encoding -/

/-- Decoding the request that expresses a well-formed instruction gives it back, with every operand at every value
the ports can carry, for every legal choice of the widths (R60, R61, R63, R64, R45; codes and packing are the spec's
decisions D2, D3, D4, log entry 14). -/
def Obligations.DecodeOfEncodeIsTheInstruction : Prop :=
  ∀ (p : Widths) (i : Instr), p.wf = true → i.wf p = true → decode p (encode p i) = .ok i

/-- R10 and R108: the widths change no result. A command that two chips' ports can both carry gets the same response
from both, whatever their widths (the defaults and constraints are the spec's decisions D5 to D7, log entry 6). -/
def Obligations.TheWidthsChangeNoResult : Prop :=
  ∀ (s s' : State) (i : Instr) (rest rest' : List HostInput),
    s.widths.wf = true → s'.widths.wf = true → s.rom = s'.rom →
    i.wf s.widths = true → i.wf s'.widths = true →
    s.inputs = .command (encode s.widths i) :: rest → s'.inputs = .command (encode s'.widths i) :: rest' →
    ∃ resp : Response,
      step s = .next { s with inputs := rest, responses := s.responses ++ [resp] } ∧
      step s' = .next { s' with inputs := rest', responses := s'.responses ++ [resp] }

/-- Command words written out from R61 decode to the operation they stand for, with the operand ports empty or zero
(log entry 4; the codes are the spec's decision D2, log entry 14); words of unassigned codes (R68) decode to nothing. -/
def Obligations.WordsOfTheTableDecode : Prop :=
  decodeTableWord 8 0b0001 = some (.shiftenc [] 0) ∧
  decodeTableWord 8 0b0010 = some (.shiftdec [] 0) ∧
  decodeTableWord 8 0b0011 = some (.parsehex []) ∧
  decodeTableWord 8 0b0100 = some (.subbytes (unpackBlock 0)) ∧
  decodeTableWord 8 0b0111 = some (.parseword []) ∧
  decodeTableWord 8 0b1000 = some (.nextword (unpackWord 0) (unpackWord 0) (unpackWord 0)) ∧
  decodeTableWord 8 0b1001 = some (.fmtbyte 0) ∧
  decodeTableWord 8 0b0000 = none ∧ decodeTableWord 8 0b1010 = none ∧ decodeTableWord 8 0b1111 = none

/-- R74's summary: the nine rows' matches are distinct, so a command word selects at most one row, and it selects one
exactly when its code is 1 to 9 (R61, R68; the codes are the spec's decision D2, log entry 14). -/
def Obligations.AtMostOneRowIsSelected : Prop :=
  opTable.length = 9 ∧
  (∀ c : BitVec 4, ∀ a ∈ opTable, ∀ b ∈ opTable,
    c &&& a.mask = a.code → c &&& b.mask = b.code → a = b) ∧
  (∀ c : BitVec 4, (∃ a ∈ opTable, c &&& a.mask = a.code) ↔ (1 ≤ c.toNat ∧ c.toNat ≤ 9))

/-- R223: a command whose `op` is 0x0 or 0xA to 0xF gets `IllegalOp`: status 2, no other port driven; an assigned code
never does (R225 b). The response is the spec's decision D10 (log entry 9). -/
def Obligations.UnassignedCodesGetIllegalOp : Prop :=
  (∀ (s : State) (r : Request) (rest : List HostInput), s.inputs = .command r :: rest →
    (r.op = 0x0 ∨ 0xA ≤ r.op.toNat) →
      step s = .next { s with inputs := rest, responses := s.responses ++ [.illegalOp] }) ∧
  (∀ (s t : State) (r : Request) (rest : List HostInput), s.inputs = .command r :: rest →
    1 ≤ r.op.toNat → r.op.toNat ≤ 9 → step s = .next t →
      t.responses.getLast? ≠ some .illegalOp) ∧
  ∀ p : Widths, (Response.illegalOp.drive p).status = 2 ∧
    ∀ q : ResponsePort, (Response.illegalOp.drive p).isDriven q = false

/-- Operands arrive as R63 to R65 and R45 say: texts as their character codes, the key as the signed integer whose
two's-complement bits the key port holds, lane `i` of a BlockState from `S[127-8i : 120-8i]`, lane `i` of a Word from
`W[31-8i : 24-8i]`, a Byte as it is (ports, widths and packing are the spec's decisions D3, D4, D6, D7, log entries 6
and 14). -/
def Obligations.OperandsComeFromTheListedPorts : Prop :=
  ∀ (p : Widths) (r : Request), p.wf = true → r.expressible p = true →
    (∃ k : Int,
      (-(2 : Int) ^ (p.keyW - 1) ≤ k ∧ k < (2 : Int) ^ (p.keyW - 1) ∧ k % (2 : Int) ^ p.keyW = (r.key : Int)) ∧
      (r.op = 0x1 → decode p r = .ok (.shiftenc r.txt k)) ∧
      (r.op = 0x2 → decode p r = .ok (.shiftdec r.txt k))) ∧
    (r.op = 0x3 → decode p r = .ok (.parsehex r.txt)) ∧
    (r.op = 0x7 → decode p r = .ok (.parseword r.txt)) ∧
    (r.op = 0x9 → decode p r = .ok (.fmtbyte r.bIn)) ∧
    (∃ st : BlockState,
      (∀ i : Fin 16, st[i] = r.stIn.extractLsb' (120 - 8 * i.val) 8) ∧
      (r.op = 0x4 → decode p r = .ok (.subbytes st)) ∧
      (r.op = 0x5 → decode p r = .ok (.shiftrows st)) ∧
      (r.op = 0x6 → decode p r = .ok (.mixcols st))) ∧
    (∃ prev four rcon : Word,
      (∀ i : Fin 4, prev[i] = r.wPrev.extractLsb' (24 - 8 * i.val) 8) ∧
      (∀ i : Fin 4, four[i] = r.wFour.extractLsb' (24 - 8 * i.val) 8) ∧
      (∀ i : Fin 4, rcon[i] = r.wRcon.extractLsb' (24 - 8 * i.val) 8) ∧
      (r.op = 0x8 → decode p r = .ok (.nextword prev four rcon)))

/-! ## The response ports -/

/-- R63's last column and R70: for every command the ports can carry, the response drives exactly the ports listed for
it, and no result port on an error (the ports and the error fields are the spec's decisions D3, D8, D10 and D15, log
entries 14, 13, 9 and 10). -/
def Obligations.ExactlyTheListedPortsAreDriven : Prop :=
  ∀ (s : State) (r : Request) (rest : List HostInput),
    s.widths.wf = true → s.inputs = .command r :: rest → r.expressible s.widths = true →
    ∃ (resp : Response) (ports : ResponsePorts),
      step s = .next { s with inputs := rest, responses := s.responses ++ [resp] } ∧ ports = resp.drive s.widths ∧
      match resp with
      | .ok _ => ports.status = 0 ∧
          ∃ row : OpRow, selectRow r.op = some row ∧ ∀ q : ResponsePort, ports.isDriven q = true ↔ q ∈ row.drives
      | .invalidInput _ _ _ _ => ports.status = 1 ∧
          ∀ q : ResponsePort, ports.isDriven q = true ↔
            q ∈ [ResponsePort.expLen, ResponsePort.actLen, ResponsePort.errLen, ResponsePort.errChar]
      | .illegalOp => ports.status = 2 ∧ ∀ q : ResponsePort, ports.isDriven q = false

/-- R29 and R70: the response outputs are those of the response at hand, the one that this step delivers. With no
response at hand (nothing issued, a reset, a command that a reset cuts) they carry no value, whatever was answered
before: R29 says so before the first command, and for every other moment it is the model's reading (log entry 10). -/
def Obligations.OutputsAreThoseOfTheResponseAtHand : Prop :=
  (∀ s : State, s.inputs = [] → s.outputs = none) ∧
  (∀ (s : State) (rest : List HostInput), s.inputs = .reset :: rest → s.outputs = none) ∧
  (∀ (s : State) (r : Request) (rest : List HostInput), s.inputs = .commandCutByReset r :: rest → s.outputs = none) ∧
  (∀ (s : State) (r : Request) (rest : List HostInput), s.inputs = .command r :: rest →
    ∃ resp : Response,
      step s = .next { s with inputs := rest, responses := s.responses ++ [resp] } ∧
      s.outputs = some (resp.drive s.widths))

/-- R67: the status values; an operation marked "no" under "can fail" in R61 always answers OK; 3 is never
produced (the numbers and the OK of total operations are the spec's decisions D8 and D23, log entries 13 and 14). -/
def Obligations.StatusValues : Prop :=
  (∀ (p : Widths) (v : Result), ((Response.ok v).drive p).status = 0) ∧
  (∀ (p : Widths) (n a : Nat) (l c : Bool), ((Response.invalidInput n a l c).drive p).status = 1) ∧
  (∀ p : Widths, (Response.illegalOp.drive p).status = 2) ∧
  (∀ (p : Widths) (resp : Response), (resp.drive p).status ≠ 3) ∧
  (∀ (s : State) (r : Request) (rest : List HostInput) (row : OpRow),
    s.inputs = .command r :: rest → selectRow r.op = some row → row.canFail = false →
    ∃ v : Result, step s = .next { s with inputs := rest, responses := s.responses ++ [.ok v] }) ∧
  (∀ row ∈ opTable, row.canFail = true ↔ row.operation = .parsehex ∨ row.operation = .parseword)

/-- The values on the driven ports: results packed by R45 (D4, log entry 14), texts as their codes, and the four fields
of R221 (D8, log entry 13). -/
def Obligations.ValuesOnTheResponsePorts : Prop :=
  ∀ p : Widths,
    (∀ st : BlockState, ∃ bus : BitVec 128, ((Response.ok (.block st)).drive p).stOut = some bus ∧
      ∀ i : Fin 16, bus.extractLsb' (120 - 8 * i.val) 8 = st[i]) ∧
    (∀ w : Word, ∃ bus : BitVec 32, ((Response.ok (.word w)).drive p).wOut = some bus ∧
      ∀ i : Fin 4, bus.extractLsb' (24 - 8 * i.val) 8 = w[i]) ∧
    (∀ out rot sub xrc : Word, ∃ (ports : ResponsePorts) (bo br bs bx : BitVec 32),
      ports = (Response.ok (.keyWord out rot sub xrc)).drive p ∧
      ports.wOut = some bo ∧ ports.wRot = some br ∧ ports.wSub = some bs ∧ ports.wXrc = some bx ∧
      ∀ i : Fin 4, bo.extractLsb' (24 - 8 * i.val) 8 = out[i] ∧ br.extractLsb' (24 - 8 * i.val) 8 = rot[i] ∧
        bs.extractLsb' (24 - 8 * i.val) 8 = sub[i] ∧ bx.extractLsb' (24 - 8 * i.val) 8 = xrc[i]) ∧
    (∀ t : Text, textWf p t = true → ((Response.ok (.text t)).drive p).txtOut = some t) ∧
    (∀ (n a : Nat) (l c : Bool), n < 2 ^ p.lenW → a < 2 ^ p.lenW → ∃ ports : ResponsePorts,
      ports = (Response.invalidInput n a l c).drive p ∧
      ports.expLen = some n ∧ ports.actLen = some a ∧
      ports.errLen = some (if l then 1 else 0) ∧ ports.errChar = some (if c then 1 else 0))

/-! ## The shift cipher -/

/-- SHIFTENC answers R105's and R106's text: each letter moved forward by the key modulo 26 within its case, every
other character as it is (letter codes: the spec's decision D5, log entry 7). -/
def Obligations.ShiftencAnswersTheShiftedText : Prop :=
  ∀ (txt : Text) (key : Int) (s : State),
    exec (.shiftenc txt key) s = .next { s with responses := s.responses ++ [.ok (.text (txt.map fun c : Nat =>
      if 0x41 ≤ c ∧ c ≤ 0x5A then 0x41 + (((c : Int) - 0x41 + key) % 26).toNat
      else if 0x61 ≤ c ∧ c ≤ 0x7A then 0x61 + (((c : Int) - 0x61 + key) % 26).toNat
      else c))] }

/-- SHIFTDEC answers R105's and R107's text: each letter moved back by the key modulo 26 within its case (letter codes:
the spec's decision D5, log entry 7). -/
def Obligations.ShiftdecAnswersTheShiftedText : Prop :=
  ∀ (txt : Text) (key : Int) (s : State),
    exec (.shiftdec txt key) s = .next { s with responses := s.responses ++ [.ok (.text (txt.map fun c : Nat =>
      if 0x41 ≤ c ∧ c ≤ 0x5A then 0x41 + (((c : Int) - 0x41 - key) % 26).toNat
      else if 0x61 ≤ c ∧ c ≤ 0x7A then 0x61 + (((c : Int) - 0x61 - key) % 26).toNat
      else c))] }

/-- R100: both operations work character by character: one result character per input character, in order, each a
function of that character, the key and the direction only. -/
def Obligations.ShiftWorksCharacterByCharacter : Prop :=
  ∃ enc dec : Int → Nat → Nat, ∀ (txt : Text) (key : Int) (s : State),
    exec (.shiftenc txt key) s =
      .next { s with responses := s.responses ++ [.ok (.text (txt.map (enc key)))] } ∧
    exec (.shiftdec txt key) s =
      .next { s with responses := s.responses ++ [.ok (.text (txt.map (dec key)))] }

/-- R110's round trip, in both orders, for every key and every text. -/
def Obligations.ShiftRoundTrip : Prop :=
  ∀ (txt : Text) (key : Int), ∃ enc dec : Text, ∀ s : State,
    exec (.shiftenc txt key) s = .next { s with responses := s.responses ++ [.ok (.text enc)] } ∧
    exec (.shiftdec enc key) s = .next { s with responses := s.responses ++ [.ok (.text txt)] } ∧
    exec (.shiftdec txt key) s = .next { s with responses := s.responses ++ [.ok (.text dec)] } ∧
    exec (.shiftenc dec key) s = .next { s with responses := s.responses ++ [.ok (.text txt)] }

/-- R110's periodicity and its further consequences, and R109's edge case: keys act modulo 26, decrypting is
encrypting with the opposite key, and two encryptions add their keys. -/
def Obligations.ShiftKeysActModulo26 : Prop :=
  ∀ (txt : Text) (key : Int) (s : State),
    exec (.shiftenc txt (key + 26)) s = exec (.shiftenc txt key) s ∧
    exec (.shiftdec txt (key + 26)) s = exec (.shiftdec txt key) s ∧
    exec (.shiftdec txt key) s = exec (.shiftenc txt (-key)) s ∧
    exec (.shiftdec txt key) s = exec (.shiftenc txt (26 - key % 26)) s ∧
    (key % 26 = 0 →
      exec (.shiftenc txt key) s = .next { s with responses := s.responses ++ [.ok (.text txt)] }) ∧
    (∀ (mid : Text) (key' : Int),
      exec (.shiftenc txt key) s = .next { s with responses := s.responses ++ [.ok (.text mid)] } →
      exec (.shiftenc mid key') s = exec (.shiftenc txt (key + key')) s)

/-- R110: both operations keep the length and the class of every character, and for each key every text is the result
of exactly one text (the classes' codes are the spec's decision D5, log entry 7). -/
def Obligations.ShiftKeepsClassesAndIsABijection : Prop :=
  (∀ (txt : Text) (key : Int) (s : State), ∃ enc dec : Text,
    exec (.shiftenc txt key) s = .next { s with responses := s.responses ++ [.ok (.text enc)] } ∧
    exec (.shiftdec txt key) s = .next { s with responses := s.responses ++ [.ok (.text dec)] } ∧
    enc.length = txt.length ∧ dec.length = txt.length ∧
    enc.map isUpper = txt.map isUpper ∧ dec.map isUpper = txt.map isUpper ∧
    enc.map isLower = txt.map isLower ∧ dec.map isLower = txt.map isLower) ∧
  (∀ (out : Text) (key : Int) (s : State),
    (∃! txt : Text,
      exec (.shiftenc txt key) s = .next { s with responses := s.responses ++ [.ok (.text out)] }) ∧
    (∃! txt : Text,
      exec (.shiftdec txt key) s = .next { s with responses := s.responses ++ [.ok (.text out)] }))

/-- R111: the 26-entry lookup table decodes every character as the normative function of R105 does, for every
effective key (the table is permitted by the spec's decision D17, log entry 18; letter codes: D5, log entry 7). -/
def Obligations.TableLookupDecoderAgrees : Prop :=
  ∀ k : Nat, k < 26 →
    (decTable k).length = 26 ∧ ∀ c : Nat, decodeCharByTable c k = shiftChar c k .decrypt

/-! ## The parsers -/

/-- R121: which codes are hexadecimal digits, and the value of each (codes: the spec's decision D5, log entry 7). -/
def Obligations.HexDigitsAndTheirValues : Prop :=
  ∀ c : Nat,
    (isHex c = true ↔ (0x30 ≤ c ∧ c ≤ 0x39) ∨ (0x41 ≤ c ∧ c ≤ 0x46) ∨ (0x61 ≤ c ∧ c ≤ 0x66)) ∧
    (0x30 ≤ c → c ≤ 0x39 → hexVal c = c - 0x30) ∧
    (0x41 ≤ c → c ≤ 0x46 → hexVal c = c - 0x41 + 10) ∧
    (0x61 ≤ c → c ≤ 0x66 → hexVal c = c - 0x61 + 10)

/-- PARSEHEX on 32 hexadecimal digits answers the BlockState whose Byte `i` is `16 * val(txt[2i]) + val(txt[2i+1])`
(R122, R123, R46; digit codes and nibble order: the spec's decisions D5 and D20, log entries 7 and 20). -/
def Obligations.ParsehexAnswersOn32Digits : Prop :=
  ∀ (txt : Text) (s : State), txt.length = 32 → (∀ c ∈ txt, isHex c = true) →
    ∃ st : BlockState,
      exec (.parsehex txt) s = .next { s with responses := s.responses ++ [.ok (.block st)] } ∧
      ∀ i : Fin 16, st[i].toNat = 16 * hexVal (txt.getD (2 * i.val) 0) + hexVal (txt.getD (2 * i.val + 1) 0)

/-- PARSEWORD on 8 hexadecimal digits answers the Word whose Byte `i` is `16 * val(txt[2i]) + val(txt[2i+1])` (R122,
R126, R46; digit codes and nibble order: the spec's decisions D5 and D20, log entries 7 and 20). -/
def Obligations.ParsewordAnswersOn8Digits : Prop :=
  ∀ (txt : Text) (s : State), txt.length = 8 → (∀ c ∈ txt, isHex c = true) →
    ∃ w : Word,
      exec (.parseword txt) s = .next { s with responses := s.responses ++ [.ok (.word w)] } ∧
      ∀ i : Fin 4, w[i].toNat = 16 * hexVal (txt.getD (2 * i.val) 0) + hexVal (txt.getD (2 * i.val + 1) 0)

/-- On every other text the parsers answer InvalidInput with the required and the actual length and both flags, each
exact; nothing else changes (R123 to R126, R221, R225 a; the flags are the spec's decision D8, log entry 13; no
separator is tolerated, D9, log entry 15; digit codes: D5, log entry 7). -/
def Obligations.ParsersRaiseInvalidInputOtherwise : Prop :=
  ∀ (txt : Text) (s : State),
    ((txt.length ≠ 32 ∨ ∃ c ∈ txt, isHex c = false) →
      exec (.parsehex txt) s = .next { s with responses := s.responses ++
        [.invalidInput 32 txt.length (decide (txt.length ≠ 32)) (decide (∃ c ∈ txt, isHex c = false))] }) ∧
    ((txt.length ≠ 8 ∨ ∃ c ∈ txt, isHex c = false) →
      exec (.parseword txt) s = .next { s with responses := s.responses ++
        [.invalidInput 8 txt.length (decide (txt.length ≠ 8)) (decide (∃ c ∈ txt, isHex c = false))] })

/-- R222: only PARSEHEX and PARSEWORD raise InvalidInput, and only under `err_len or err_char`; the other seven never
do, for any operand values. The two flags are the spec's decision D8 (log entry 13) and the digit codes D5 (log entry
7). -/
def Obligations.OnlyTheParsersRaiseInvalidInput : Prop :=
  ∀ (i : Instr) (s t : State) (n a : Nat) (l c : Bool),
    exec i s = .next t → t.responses.getLast? = some (.invalidInput n a l c) →
    ∃ txt : Text, ((i = .parsehex txt ∧ n = 32) ∨ (i = .parseword txt ∧ n = 8)) ∧
      (l = true ∨ c = true) ∧ (txt.length ≠ n ∨ ∃ d ∈ txt, isHex d = false)

/-- R128 (b): two texts that differ only in the case of digit letters get the same response (letter codes: the spec's
decision D5, log entry 7). -/
def Obligations.ParsersIgnoreTheCaseOfDigits : Prop :=
  ∀ (txt txt' : Text) (s : State), txt.map upperDigit = txt'.map upperDigit →
    exec (.parsehex txt) s = exec (.parsehex txt') s ∧ exec (.parseword txt) s = exec (.parseword txt') s

/-- R128 (c) and R212 (b): formatting each Byte of a parsed string with FMTBYTE, in a run of the core, and joining the
results as FMTSTATE and FMTWORD do (R73), gives the string back in upper case (digit codes and nibble order: the spec's
decisions D5 and D20, log entries 7 and 20; the joining: D21, log entry 22). -/
def Obligations.FormattingAParsedStringGivesItBack : Prop :=
  (∀ (h : Text) (s : State), h.length = 32 → (∀ c ∈ h, isHex c = true) →
    ∃ (st : BlockState) (t : State) (new : List Response),
      exec (.parsehex h) s = .next { s with responses := s.responses ++ [.ok (.block st)] } ∧
      runSteps 16
        { s with inputs := st.toList.map fun b => .command (encode s.widths (.fmtbyte b)) } = .next t ∧
      t.responses = s.responses ++ new ∧ joinedTexts new = h.map upperDigit) ∧
  (∀ (h : Text) (s : State), h.length = 8 → (∀ c ∈ h, isHex c = true) →
    ∃ (w : Word) (t : State) (new : List Response),
      exec (.parseword h) s = .next { s with responses := s.responses ++ [.ok (.word w)] } ∧
      runSteps 4
        { s with inputs := w.toList.map fun b => .command (encode s.widths (.fmtbyte b)) } = .next t ∧
      t.responses = s.responses ++ new ∧ joinedTexts new = h.map upperDigit)

/-- R128 (d): every BlockState is the result of PARSEHEX on exactly one upper-case 32-digit string (the digit codes
written out are the spec's decision D5, log entry 7; nibble order: D20, log entry 20). -/
def Obligations.EveryBlockStateHasOneUpperCaseString : Prop :=
  ∀ (st : BlockState) (s : State), ∃! h : Text,
    h.length = 32 ∧ (∀ c ∈ h, (0x30 ≤ c ∧ c ≤ 0x39) ∨ (0x41 ≤ c ∧ c ≤ 0x46)) ∧
    exec (.parsehex h) s = .next { s with responses := s.responses ++ [.ok (.block st)] }

/-! ## The block steps -/

/-- R140: SUBBYTES answers, in every state and for every BlockState, the state whose Byte at each position is the
table's entry for the Byte there; it has no failure mode. -/
def Obligations.SubbytesAnswersTheTableEntries : Prop :=
  ∀ (st : BlockState) (s : State), ∃ out : BlockState,
    exec (.subbytes st) s = .next { s with responses := s.responses ++ [.ok (.block out)] } ∧
    ∀ i : Fin 16, out[i] = s.rom.read st[i]

/-- R148: with every bijective table SUBBYTES is a bijection on BlockStates; with every table it commutes with
SHIFTROWS; with the default table (the spec's decision D13, log entry 3) it does not commute with MIXCOLS in general. -/
def Obligations.SubbytesLaws : Prop :=
  (∀ (st : BlockState) (s : State), exec (.subbytes st) s =
    .next { s with responses := s.responses ++ [.ok (.block (subBytes s.rom st))] }) ∧
  (∀ rom : Memory, rom.isBijection → Function.Bijective (subBytes rom)) ∧
  (∀ (rom : Memory) (st : BlockState), subBytes rom (shiftRows st) = shiftRows (subBytes rom st)) ∧
  (∃ st : BlockState, subBytes State.reset.rom (mixColumns st) ≠ mixColumns (subBytes State.reset.rom st))

/-- R144: each entry of the reset table is the affine map of the multiplicative inverse of its index, 0 for 0, and
that inverse is unique (the default content: the spec's decision D13, general knowledge, log entry 3). -/
def Obligations.DefaultTableIsTheAlgebraicOne : Prop :=
  ∀ a : Byte, ∃! b : Byte, isSboxInverse a b ∧ State.reset.rom.read a = sboxAffine b

/-- R145: the facts about the reset table: a bijection, no fixed point, no complemented fixed point, and the entries
the spec lists. -/
def Obligations.DefaultTableFacts : Prop :=
  State.reset.rom.isBijection ∧
  (∀ a : Byte, State.reset.rom.read a ≠ a ∧ State.reset.rom.read a ≠ a ^^^ 0xFF#8) ∧
  State.reset.rom.read 0x00#8 = 0x63#8 ∧ State.reset.rom.read 0x10#8 = 0xCA#8 ∧
  State.reset.rom.read 0xFF#8 = 0x16#8 ∧
  (∀ a : Byte, State.reset.rom.read a = 0x00#8 ↔ a = 0x52#8) ∧
  (List.range 16).map (fun n => State.reset.rom.read (BitVec.ofNat 8 n)) =
    [0x63#8, 0x7C#8, 0x77#8, 0x7B#8, 0xF2#8, 0x6B#8, 0x6F#8, 0xC5#8,
     0x30#8, 0x01#8, 0x67#8, 0x2B#8, 0xFE#8, 0xD7#8, 0xAB#8, 0x76#8]

/-- R161: SHIFTROWS answers the state whose row `r`, column `c` holds the input's row `r`, column `(c + r) mod 4`: row
`r` rotated left by `r`. `idx r c` is the flat index `r + 4*c`. -/
def Obligations.ShiftrowsAnswersTheRotatedRows : Prop :=
  ∀ (st : BlockState) (s : State), ∃ out : BlockState,
    exec (.shiftrows st) s = .next { s with responses := s.responses ++ [.ok (.block out)] } ∧
    ∀ r c c' : Fin 4, c'.val = (c.val + r.val) % 4 → out[idx r c] = st[idx r c']

/-- R163 and R164: the source index is `(5 * i) mod 16`; SHIFTROWS is a bijection of order 4, twice is not the
identity, and rotating each row right by its number undoes it. -/
def Obligations.ShiftrowsLaws : Prop :=
  (∀ (st : BlockState) (s : State), exec (.shiftrows st) s =
    .next { s with responses := s.responses ++ [.ok (.block (shiftRows st))] }) ∧
  (∀ i : Fin 16, (shiftRowsSource i).val = (5 * i.val) % 16) ∧
  Function.Bijective shiftRows ∧
  (∀ st : BlockState, shiftRows (shiftRows (shiftRows (shiftRows st))) = st) ∧
  (∃ st : BlockState, shiftRows (shiftRows st) ≠ st) ∧
  (∀ (st : BlockState) (r c c' : Fin 4), c'.val = (c.val + 4 - r.val) % 4 →
    (shiftRows st)[idx r c'] = st[idx r c])

/-- R177: MIXCOLS answers, in every state and for every BlockState, the state whose columns are the mixed columns. -/
def Obligations.MixcolsAnswersTheMixedColumns : Prop :=
  ∀ (st : BlockState) (s : State), ∃ out : BlockState,
    exec (.mixcols st) s = .next { s with responses := s.responses ++ [.ok (.block out)] } ∧
    ∀ c : Fin 4,
      let a := st[idx 0 c]
      let b := st[idx 1 c]
      let g := st[idx 2 c]
      let d := st[idx 3 c]
      out[idx 0 c] = xtime a ^^^ (xtime b ^^^ b) ^^^ g ^^^ d ∧
      out[idx 1 c] = a ^^^ xtime b ^^^ (xtime g ^^^ g) ^^^ d ∧
      out[idx 2 c] = a ^^^ b ^^^ xtime g ^^^ (xtime d ^^^ d) ∧
      out[idx 3 c] = (xtime a ^^^ a) ^^^ b ^^^ g ^^^ xtime d

/-- R175: the fixed matrix's rows; each is the row above rotated right by one place; and output row `i` of every
column is the field product of matrix row `i` with the column. The product is taken with the general field
multiplication of R144, so that it does not repeat the model's own multipliers. -/
def Obligations.MixcolsIsTheMatrixProduct : Prop :=
  ((List.finRange 4).map (mixCoefficient 0) = [2, 3, 1, 1] ∧ (List.finRange 4).map (mixCoefficient 1) = [1, 2, 3, 1] ∧
    (List.finRange 4).map (mixCoefficient 2) = [1, 1, 2, 3] ∧ (List.finRange 4).map (mixCoefficient 3) = [3, 1, 1, 2]) ∧
  (∀ i j : Fin 4, mixCoefficient (i + 1) (j + 1) = mixCoefficient i j) ∧
  ∀ (st : BlockState) (s : State), ∃ out : BlockState,
    exec (.mixcols st) s = .next { s with responses := s.responses ++ [.ok (.block out)] } ∧
    ∀ i c : Fin 4, out[idx i c] =
      gmul (BitVec.ofNat 8 (mixCoefficient i 0)) st[idx 0 c] ^^^
      gmul (BitVec.ofNat 8 (mixCoefficient i 1)) st[idx 1 c] ^^^
      gmul (BitVec.ofNat 8 (mixCoefficient i 2)) st[idx 2 c] ^^^
      gmul (BitVec.ofNat 8 (mixCoefficient i 3)) st[idx 3 c]

/-- R172: doubling is a left shift by one with the bit shifted out dropped, XORed with 0x1B when the bit 7 before the
shift was set; it is a bijection; and the values the rule lists. -/
def Obligations.DoublingInTheField : Prop :=
  (∀ b : Byte, (xtime b).toNat =
    if 128 ≤ b.toNat then (2 * b.toNat % 256) ^^^ 0x1B else 2 * b.toNat % 256) ∧
  Function.Bijective xtime ∧
  xtime 0x00#8 = 0x00#8 ∧ xtime 0x01#8 = 0x02#8 ∧ xtime 0x57#8 = 0xAE#8 ∧ xtime 0x7F#8 = 0xFE#8 ∧
  xtime 0x80#8 = 0x1B#8 ∧ xtime 0x81#8 = 0x19#8 ∧ xtime 0xAE#8 = 0x47#8 ∧ xtime 0xFF#8 = 0xE5#8 ∧
  xtime 0x8D#8 = 0x01#8

/-- R173: the three multipliers are linear over XOR, agree with the field multiplication by 1, 2 and 3, and have the
values the rule lists. -/
def Obligations.MultipliersOfTheMatrix : Prop :=
  (∀ a b : Byte, mul1 (a ^^^ b) = mul1 a ^^^ mul1 b ∧ mul2 (a ^^^ b) = mul2 a ^^^ mul2 b ∧
    mul3 (a ^^^ b) = mul3 a ^^^ mul3 b) ∧
  (∀ b : Byte, mul1 b = b ∧ mul2 b = xtime b ∧ mul3 b = xtime b ^^^ b ∧
    gmul 0x01#8 b = mul1 b ∧ gmul 0x02#8 b = mul2 b ∧ gmul 0x03#8 b = mul3 b) ∧
  mul3 0x00#8 = 0x00#8 ∧ mul3 0x01#8 = 0x03#8 ∧ mul3 0x57#8 = 0xF9#8 ∧ mul3 0x80#8 = 0x9B#8 ∧
  mul3 0xFF#8 = 0x1A#8 ∧ mul3 0xBF#8 = 0xDA#8 ∧ mul3 0xD4#8 = 0x67#8

/-- R179: MIXCOLS is linear, is a bijection of order 4, twice is the matrix {5,0,4,0}, {0,5,0,4}, {4,0,5,0},
{0,4,0,5}, so that two applications return a state exactly when every column has the form (a, b, a, b), and one
application returns it exactly when the four Bytes of every column are equal. -/
def Obligations.MixcolsLaws : Prop :=
  (∀ (st : BlockState) (s : State), exec (.mixcols st) s =
    .next { s with responses := s.responses ++ [.ok (.block (mixColumns st))] }) ∧
  (∀ st st' : BlockState, mixColumns (xorBlock st st') = xorBlock (mixColumns st) (mixColumns st')) ∧
  Function.Bijective mixColumns ∧
  (∀ st : BlockState, mixColumns (mixColumns (mixColumns (mixColumns st))) = st) ∧
  (∀ (st : BlockState) (r c : Fin 4), (mixColumns (mixColumns st))[idx r c] =
    xtime (xtime st[idx r c]) ^^^ st[idx r c] ^^^ xtime (xtime st[idx (r + 2) c])) ∧
  (∀ st : BlockState, mixColumns (mixColumns st) = st ↔
    ∀ c : Fin 4, st[idx 0 c] = st[idx 2 c] ∧ st[idx 1 c] = st[idx 3 c]) ∧
  (∀ st : BlockState, mixColumns st = st ↔ ∀ r c : Fin 4, st[idx r c] = st[idx 0 c])

/-- R73 (c): the host's ROUNDSTEPS issues SUBBYTES, SHIFTROWS and MIXCOLS, each on the result of the one before, and
binds the last result (a pseudo-operation of the spec's decision D21, log entry 22). -/
def Obligations.RoundstepsIsTheThreeSteps : Prop :=
  ∀ (st : BlockState) (s : State), s.inputs = [] →
    let s1 := subBytes s.rom st
    let s2 := shiftRows s1
    let s3 := mixColumns s2
    runProgram (roundStepsLines 0 (.lit (.block st))) [] s =
      ([(2, .block s3), (1, .block s2), (0, .block s1)],
       { s with responses := s.responses ++ [.ok (.block s1), .ok (.block s2), .ok (.block s3)] })

/-- R73 (b): the host's FMTSTATE on a BlockState, and FMTWORD on a Word, issue FMTBYTE on each Byte in index order and bind
the concatenation of the results, whatever the argument is called: also when it is the target's own variable
(pseudo-operations of the spec's decision D21; that the joined text alone is bound is the model's choice, log entry
22). -/
def Obligations.FormattingBindsTheJoinedText : Prop :=
  (∀ (st : BlockState) (target : Nat) (a : HostArg) (env : HostEnv) (s : State),
    s.inputs = [] → a.eval env = some (.block st) →
    runFmtState target a env s =
      ((target, .text (st.toList.flatMap formatByte)) :: env,
       { s with responses := s.responses ++ st.toList.map fun b => .ok (.text (formatByte b)) })) ∧
  (∀ (w : Word) (target : Nat) (a : HostArg) (env : HostEnv) (s : State),
    s.inputs = [] → a.eval env = some (.word w) →
    runFmtWord target a env s =
      ((target, .text (w.toList.flatMap formatByte)) :: env,
       { s with responses := s.responses ++ w.toList.map fun b => .ok (.text (formatByte b)) }))

/-- R72 and R255: a host program ends at the first response that is not `Ok`, which binds nothing, and a line whose
argument is not bound is never issued: after a failed parse no later line changes anything. Nor is a line whose command
the ports cannot carry (U10, U11, R256). That the program ends at a line that is not issued is the model's choice (log
entries 22 and 24); the notation is the spec's decision D21. -/
def Obligations.AHostProgramEndsAtTheFirstFailure : Prop :=
  (∀ (s : State) (env : HostEnv) (l : HostLine) (ls : List HostLine) (i : Instr) (t : State) (resp : Response),
    l.command s.widths env = some i → step (s.issue (.command (encode s.widths i))) = .next t →
    t.responses.getLast? = some resp → (∀ v : Result, resp ≠ .ok v) →
    runProgram (l :: ls) env s = (env, t)) ∧
  (∀ (s : State) (env : HostEnv) (l : HostLine) (ls : List HostLine), l.command s.widths env = none →
    runProgram (l :: ls) env s = (env, s)) ∧
  (∀ (s : State) (env : HostEnv) (l : HostLine) (ls : List HostLine),
    (∃ a ∈ l.args, a.eval env = none) → runProgram (l :: ls) env s = (env, s)) ∧
  (∀ (s : State) (env : HostEnv) (l : HostLine) (ls : List HostLine) (vs : List HostValue) (i : Instr),
    l.args.map (fun a => a.eval env) = vs.map some → buildCommand l.operation vs = some i →
    i.wf s.widths = false → runProgram (l :: ls) env s = (env, s))

/-! ## The key-schedule word -/

/-- R195: the code, the four steps in order with the exact intermediates of R196, the closed form, the corner cases and
the example. The code and packing are the spec's decisions D2 and D4 (log entry 14), the intermediates D11 (log entry
12), and the example's value in the default table rests on D13 (log entry 3). -/
def Obligations.NextwordAnswersTheFourSteps : Prop :=
  (∀ (p : Widths) (r : Request), r.op = 0x8 → decode p r = .ok (.nextword r.prev r.four r.rcon)) ∧
  (∀ (prev four rcon : Word) (s : State), ∃ out rot sub xrc : Word,
    exec (.nextword prev four rcon) s =
      .next { s with responses := s.responses ++ [.ok (.keyWord out rot sub xrc)] } ∧
    rot = #v[four[1], four[2], four[3], four[0]] ∧
    (∀ i : Fin 4, sub[i] = s.rom.read rot[i] ∧ xrc[i] = sub[i] ^^^ rcon[i] ∧ out[i] = xrc[i] ^^^ prev[i] ∧
      out[i] = s.rom.read four[i + 1] ^^^ rcon[i] ^^^ prev[i]) ∧
    (rcon = unpackWord 0 → xrc = sub) ∧ (prev = unpackWord 0 → out = xrc) ∧
    (prev = xrc → out = unpackWord 0) ∧
    (prev = unpackWord 0 → four = unpackWord 0 → rcon = unpackWord 0 →
      rot = unpackWord 0 ∧ out = sub ∧ ∀ i : Fin 4, sub[i] = s.rom.read 0#8)) ∧
  (∀ s : State, s.rom = [] →
    exec (.nextword (unpackWord 0x1A91F720) (unpackWord 0x10000000) (unpackWord 0x10000000)) s =
      .next { s with responses := s.responses ++
        [.ok (.keyWord (unpackWord 0x69F294EA) (unpackWord 0x00000010) (unpackWord 0x636363CA)
          (unpackWord 0x736363CA))] })

/-- R192: RotWord moves the Byte at offset 0 to offset 3 and every other one place down; on the 32-bit bus it is a
rotate left by 8 bits (the packing is the spec's decision D4, log entry 14); the example of the source; and it is what
SHIFTROWS does to row 1 (R161 with k = 1). -/
def Obligations.RotwordRotatesByOneByte : Prop :=
  (∀ w : Word, rotWord w = #v[w[1], w[2], w[3], w[0]]) ∧
  (∀ w : Word, packWord (rotWord w) = (packWord w).rotateLeft 8) ∧
  rotWord (unpackWord 0x10000000) = unpackWord 0x00000010 ∧
  (∀ (st : BlockState) (c : Fin 4),
    (shiftRows st)[idx 1 c] = (rotWord #v[st[idx 1 0], st[idx 1 1], st[idx 1 2], st[idx 1 3]])[c])

/-- R198: `out` is XOR-linear in `prev` and in `rcon`; with a bijective table it is a bijection of `four`; `rot` and
`sub` depend on `four` only and `xrc` not on `prev`; and the host's checks `out ^ prev = xrc`, `xrc ^ rcon = sub`. That
NEXTWORD always returns `rot`, `sub` and `xrc` is the spec's decision D11 (log entry 12). -/
def Obligations.NextwordLaws : Prop :=
  ∀ s : State, ∃ (outOf : Word → Word → Word → Word) (rotOf subOf : Word → Word) (xrcOf : Word → Word → Word),
    (∀ prev four rcon : Word, exec (.nextword prev four rcon) s = .next { s with responses := s.responses ++
      [.ok (.keyWord (outOf prev four rcon) (rotOf four) (subOf four) (xrcOf four rcon))] }) ∧
    (∀ prev four rcon d : Word, outOf (xorWord prev d) four rcon = xorWord (outOf prev four rcon) d) ∧
    (∀ prev four rcon d : Word, outOf prev four (xorWord rcon d) = xorWord (outOf prev four rcon) d) ∧
    (∀ prev rcon : Word, s.rom.isBijection → Function.Bijective fun four => outOf prev four rcon) ∧
    (∀ prev four rcon : Word, xorWord (outOf prev four rcon) prev = xrcOf four rcon ∧
      xorWord (xrcOf four rcon) rcon = subOf four)

/-! ## The byte formatter -/

/-- R210: FMTBYTE answers, in every state and for every Byte, exactly two upper-case hexadecimal digits, zero-padded,
the high nibble first; it has no failure mode (R211, R212 a; digit codes: the spec's decision D5). -/
def Obligations.FmtbyteAnswersTwoUpperCaseDigits : Prop :=
  ∀ (b : Byte) (s : State), ∃ high low : Nat,
    exec (.fmtbyte b) s = .next { s with responses := s.responses ++ [.ok (.text [high, low])] } ∧
    (∀ c ∈ [high, low], (0x30 ≤ c ∧ c ≤ 0x39) ∨ (0x41 ≤ c ∧ c ≤ 0x46)) ∧
    hexVal high = b.toNat / 16 ∧ hexVal low = b.toNat % 16 ∧ 16 * hexVal high + hexVal low = b.toNat
end

