-- ==== Sys2Proof/Laws/Decode.lean ====
section
/-! SUPPORT. The operation table, row by row. -/

namespace Sys2Proof

open Machine

/-- The code of an operation selects its row (R61, R74). -/
theorem selectRow_codeOf (o : Operation) : (selectRow (codeOf o)).map OpRow.operation = some o := by
  cases o <;> rfl

/-- A request with an operation's code decodes to that operation, its operands taken from its ports. -/
theorem decode_of_op_eq_codeOf {p : Config.Widths} {r : Request} {o : Operation} (h : r.op = codeOf o) :
    decode p r = .ok (assemble p o r) := by
  have hrow := selectRow_codeOf o
  rw [← h] at hrow
  unfold decode
  cases hs : selectRow r.op with
  | none => simp [hs] at hrow
  | some row =>
    have hop : row.operation = o := by simpa [hs] using hrow
    simp [hop]

/-- The decoder answers an instruction exactly when the table has a row for the code. -/
theorem decode_eq_ok_iff (p : Config.Widths) (r : Request) (i : Instr) :
    decode p r = .ok i ↔ ∃ row, selectRow r.op = some row ∧ assemble p row.operation r = i := by
  unfold decode
  cases selectRow r.op <;> simp

/-- The decoder rejects exactly when the table has no row for the code. -/
theorem decode_eq_error_iff (p : Config.Widths) (r : Request) (e : DecodeError) :
    decode p r = .error e ↔ selectRow r.op = none ∧ e = .unassignedOp r.op := by
  unfold decode
  cases selectRow r.op <;> simp [eq_comm]

/-- The unassigned codes have no row (R68). -/
theorem selectRow_eq_none_iff (c : BitVec Config.opW) : selectRow c = none ↔ c = 0x0 ∨ 0xA ≤ c := by
  revert c; decide

end Sys2Proof
end

