-- ==== Sys2Proof/Laws/Layout.lean ====
section
/-! SUPPORT. Packing onto buses loses nothing, and the index function of R47 has the inverse R47 gives. -/

namespace Sys2Proof.Machine

@[simp] theorem rowOf_idx (r c : Fin 4) : rowOf (idx r c) = r := by
  simp only [rowOf, idx, Fin.ext_iff]; omega

@[simp] theorem colOf_idx (r c : Fin 4) : colOf (idx r c) = c := by
  simp only [colOf, idx, Fin.ext_iff]; omega

@[simp] theorem idx_rowOf_colOf (i : Fin 16) : idx (rowOf i) (colOf i) = i := by
  simp only [rowOf, colOf, idx, Fin.ext_iff]; omega

/-- Two BlockStates with the same bytes are equal. -/
theorem blockState_ext {st st' : BlockState} (h : ∀ i : Fin 16, st[i] = st'[i]) : st = st' :=
  Vector.ext fun i hi => h ⟨i, hi⟩

/-- Two Words with the same bytes are equal. -/
theorem word_ext {w w' : Word} (h : ∀ i : Fin 4, w[i] = w'[i]) : w = w' :=
  Vector.ext fun i hi => h ⟨i, hi⟩

/-- A byte that lies above the lower part of an append is a byte of the upper part. -/
theorem extractByte_append_high {n m k : Nat} (x : BitVec n) (y : BitVec m) :
    (x ++ y).extractLsb' (m + k) 8 = x.extractLsb' k 8 := by
  rw [BitVec.extractLsb'_append_eq_of_le (by omega)]; congr 1; omega

/-- A byte that lies within the lower part of an append is a byte of that part. -/
theorem extractByte_append_low {n m k : Nat} (x : BitVec n) (y : BitVec m) (h : k + 8 ≤ m) :
    (x ++ y).extractLsb' k 8 = y.extractLsb' k 8 :=
  BitVec.extractLsb'_append_eq_of_add_le h

/-- Nothing is lost when a Word is put on its bus (R45). -/
theorem unpackWord_packWord (w : Word) : unpackWord (packWord w) = w := by
  apply word_ext
  intro i
  simp only [unpackWord, Fin.getElem_fin, Vector.getElem_ofFn]
  match i with
  | 0 =>
    exact (extractByte_append_high (k := 16) (w[0] ++ w[1] ++ w[2]) w[3]).trans
      ((extractByte_append_high (k := 8) (w[0] ++ w[1]) w[2]).trans
        ((extractByte_append_high (k := 0) w[0] w[1]).trans (by simp)))
  | 1 =>
    exact (extractByte_append_high (k := 8) (w[0] ++ w[1] ++ w[2]) w[3]).trans
      ((extractByte_append_high (k := 0) (w[0] ++ w[1]) w[2]).trans
        ((extractByte_append_low _ _ (by decide)).trans (by simp)))
  | 2 =>
    exact (extractByte_append_high (k := 0) (w[0] ++ w[1] ++ w[2]) w[3]).trans
      ((extractByte_append_low _ _ (by decide)).trans (by simp))
  | 3 => exact (extractByte_append_low _ _ (by decide)).trans (by simp)

/-- A byte of four 32-bit parts put together is the byte of the part it lies in. -/
theorem extractByte_append_four (a b c d : BitVec 32) {k : Nat} (h : k + 8 ≤ 32) :
    (a ++ b ++ c ++ d).extractLsb' (32 + (32 + (32 + k))) 8 = a.extractLsb' k 8 ∧
    (a ++ b ++ c ++ d).extractLsb' (32 + (32 + k)) 8 = b.extractLsb' k 8 ∧
    (a ++ b ++ c ++ d).extractLsb' (32 + k) 8 = c.extractLsb' k 8 ∧
    (a ++ b ++ c ++ d).extractLsb' k 8 = d.extractLsb' k 8 := by
  refine ⟨?_, ?_, ?_, extractByte_append_low _ _ h⟩
  · rw [extractByte_append_high, extractByte_append_high, extractByte_append_high]
  · rw [extractByte_append_high, extractByte_append_high, extractByte_append_low _ _ h]
  · rw [extractByte_append_high, extractByte_append_low _ _ h]

/-- The byte of a Word's bus at lane `r`. -/
theorem extractByte_packWord (w : Word) (r : Fin 4) : (packWord w).extractLsb' (24 - 8 * r.val) 8 = w[r] := by
  have h := congrArg (fun v : Word => v[r]) (unpackWord_packWord w)
  simpa [unpackWord] using h

/-- The byte of a BlockState's bus at row `r` of column `c`. -/
theorem extractByte_packBlock (st : BlockState) (r c : Fin 4) :
    (packBlock st).extractLsb' (120 - 8 * (idx r c).val) 8 = st[idx r c] := by
  have hcol : (packWord (column st c)).extractLsb' (24 - 8 * r.val) 8 = st[idx r c] := by
    rw [extractByte_packWord]; simp [column]
  rw [← hcol]
  have h4 := extractByte_append_four (packWord (column st 0)) (packWord (column st 1))
    (packWord (column st 2)) (packWord (column st 3)) (k := 24 - 8 * r.val) (by omega)
  match c with
  | 0 => refine Eq.trans ?_ h4.1; congr 1; simp only [idx, Fin.coe_ofNat_eq_mod]; omega
  | 1 => refine Eq.trans ?_ h4.2.1; congr 1; simp only [idx, Fin.coe_ofNat_eq_mod]; omega
  | 2 => refine Eq.trans ?_ h4.2.2.1; congr 1; simp only [idx, Fin.coe_ofNat_eq_mod]; omega
  | 3 => refine Eq.trans ?_ h4.2.2.2; congr 1; simp only [idx, Fin.coe_ofNat_eq_mod]; omega

/-- Nothing is lost when a BlockState is put on its bus (R45). -/
theorem unpackBlock_packBlock (st : BlockState) : unpackBlock (packBlock st) = st := by
  apply blockState_ext
  intro i
  have h := extractByte_packBlock st (rowOf i) (colOf i)
  simp only [idx_rowOf_colOf] at h
  simpa [unpackBlock] using h

end Sys2Proof.Machine
end

