-- ==== Sys2Proof/Laws/Operands.lean ====
section
/-! SUPPORT. Operands through the ports and back, and the values of hexadecimal digits. -/

namespace Sys2Proof.Machine

open Config

/-- A text whose codes fit is not changed by a text port (R64). -/
theorem map_mod_eq_self {p : Widths} {t : Text} (h : charsFit p t = true) : t.map (fun c => c % 2 ^ p.charW) = t := by
  simp only [charsFit, List.all_eq_true, decide_eq_true_eq] at h
  conv_rhs => rw [← List.map_id t]
  exact List.map_congr_left fun c hc => Nat.mod_eq_of_lt (h c hc)

/-- Encoding leaves a text whose codes fit as it is (R64). -/
theorem encodeText_eq_self {p : Widths} {t : Text} (h : charsFit p t = true) : encodeText p t = t := map_mod_eq_self h

/-- The text operand of a request whose characters fit is the text on its port (R64). -/
theorem text_eq_txt {p : Widths} {r : Request} (h : charsFit p r.txt = true) : r.text p = r.txt := map_mod_eq_self h

/-- A key that fits comes back from the key port as it was (R64). -/
theorem toInt_encodeKey {p : Widths} {k : Int} (hp : 1 ≤ p.keyW) (h : keyWf p k = true) :
    (BitVec.ofNat p.keyW (encodeKey p k)).toInt = k := by
  simp only [keyWf, Bool.and_eq_true, decide_eq_true_eq] at h
  rw [encodeKey, BitVec.ofNat_toNat, BitVec.setWidth_eq]
  exact BitVec.toInt_ofInt_eq_self hp h.1 h.2

/-- The text a request carries is made of codes that fit (R63). -/
theorem charsFit_text (p : Widths) (r : Request) : charsFit p (r.text p) = true := by
  simp only [charsFit, Request.text, List.all_map, List.all_eq_true, Function.comp, decide_eq_true_eq]
  exact fun c _ => Nat.mod_lt _ (by positivity)

@[simp] theorem length_text (p : Widths) (r : Request) : (r.text p).length = r.txt.length := by simp [Request.text]

theorem isDecDigit_iff (c : Nat) : isDecDigit c = true ↔ 0x30 ≤ c ∧ c ≤ 0x39 := by simp [isDecDigit]

theorem isUpperHex_iff (c : Nat) : isUpperHex c = true ↔ 0x41 ≤ c ∧ c ≤ 0x46 := by simp [isUpperHex]

theorem isLowerHex_iff (c : Nat) : isLowerHex c = true ↔ 0x61 ≤ c ∧ c ≤ 0x66 := by simp [isLowerHex]

/-- The three ranges of R121. -/
theorem isHex_iff (c : Nat) :
    isHex c = true ↔ (0x30 ≤ c ∧ c ≤ 0x39) ∨ (0x41 ≤ c ∧ c ≤ 0x46) ∨ (0x61 ≤ c ∧ c ≤ 0x66) := by
  simp [isHex, isDecDigit, isUpperHex, isLowerHex, or_assoc]

/-- The value of a digit is in 0..15 (R121). -/
theorem hexVal_lt {c : Nat} (h : isHex c = true) : hexVal c < 16 := by
  rw [isHex_iff] at h
  simp only [hexVal, isDecDigit_iff, isUpperHex_iff]
  split
  · omega
  · split <;> omega

/-- A pair of digits makes the Byte `16 * val(h) + val(l)` exactly (R122). -/
theorem toNat_pairByte {h l : Nat} (hh : isHex h = true) (hl : isHex l = true) :
    (pairByte h l).toNat = 16 * hexVal h + hexVal l := by
  have h1 := hexVal_lt hh
  have h2 := hexVal_lt hl
  simp only [pairByte, BitVec.toNat_ofNat]
  exact Nat.mod_eq_of_lt (by omega)

@[simp] theorem getElem_hexBytes (n : Nat) (txt : Text) (i : Nat) (hi : i < n) :
    (hexBytes n txt)[i] = pairByte (txt.getD (2 * i) 0) (txt.getD (2 * i + 1) 0) := by
  simp [hexBytes]

@[simp] theorem getElem_xorWord (a b : Word) (i : Nat) (hi : i < 4) : (xorWord a b)[i] = a[i] ^^^ b[i] := by
  simp [xorWord, gfAdd]

@[simp] theorem getElem_xorBlock (a b : BlockState) (i : Nat) (hi : i < 16) : (xorBlock a b)[i] = a[i] ^^^ b[i] := by
  simp [xorBlock, gfAdd]

@[simp] theorem getElem_column (st : BlockState) (c : Fin 4) (r : Nat) (hr : r < 4) :
    (column st c)[r] = st[idx ⟨r, hr⟩ c] := by
  simp [column]

/-- Every ASCII code fits a character port of a legal width. -/
theorem le_two_pow_charW {p : Widths} (h : p.wf = true) : 128 ≤ 2 ^ p.charW := by
  simp only [Widths.wf, Bool.and_eq_true, decide_eq_true_eq] at h
  exact (by norm_num : 128 = 2 ^ 7) ▸ Nat.pow_le_pow_right (by norm_num) h.1.1

/-- The lengths 8 and 32 fit a length port of a legal width. -/
theorem le_two_pow_lenW {p : Widths} (h : p.wf = true) : 64 ≤ 2 ^ p.lenW := by
  simp only [Widths.wf, Bool.and_eq_true, decide_eq_true_eq] at h
  exact (by norm_num : 64 = 2 ^ 6) ▸ Nat.pow_le_pow_right (by norm_num) h.2

end Sys2Proof.Machine
end

