-- ==== Sys2Proof/Laws/Families.lean ====
section
/-! SUPPORT. The small lemmas of the operations' functions: each says once what one lane, column or character is. -/

namespace Sys2Proof.Machine

theorem fmod_lt (n : Int) : fmod n 26 < 26 := by
  simp only [fmod]; omega

/-- `fmod` is the remainder R13 describes. -/
theorem fmod_cast (n : Int) : ((fmod n 26 : Nat) : Int) = n % 26 := by
  simp only [fmod]; omega

theorem effectiveKey_lt (key : Int) : effectiveKey key < 26 := fmod_lt key

theorem isUpper_iff (c : Nat) : isUpper c = true ↔ 0x41 ≤ c ∧ c ≤ 0x5A := by simp [isUpper]

theorem isLower_iff (c : Nat) : isLower c = true ↔ 0x61 ≤ c ∧ c ≤ 0x7A := by simp [isLower]

/-- An uppercase letter moves within 'A' to 'Z' (R105). -/
theorem shiftChar_upper {c : Nat} (h : isUpper c = true) (k : Nat) (d : Direction) :
    shiftChar c k d = 0x41 + fmod (((c : Int) - 0x41) + d.sign * k) 26 := by simp [shiftChar, h]

/-- A lowercase letter moves within 'a' to 'z' (R105). -/
theorem shiftChar_lower {c : Nat} (h : isUpper c = false) (h' : isLower c = true) (k : Nat) (d : Direction) :
    shiftChar c k d = 0x61 + fmod (((c : Int) - 0x61) + d.sign * k) 26 := by simp [shiftChar, h, h']

/-- Every other character passes through (R105). -/
theorem shiftChar_other {c : Nat} (h : isUpper c = false) (h' : isLower c = false) (k : Nat) (d : Direction) :
    shiftChar c k d = c := by simp [shiftChar, h, h']

@[simp] theorem length_shiftText (d : Direction) (t : Text) (key : Int) : (shiftText d t key).length = t.length := by
  simp [shiftText]

@[simp] theorem getElem_subBytes (rom : Memory) (st : BlockState) (i : Nat) (hi : i < 16) :
    (subBytes rom st)[i] = rom.read st[i] := by
  simp [subBytes]

@[simp] theorem getElem_shiftRows (st : BlockState) (i : Nat) (hi : i < 16) :
    (shiftRows st)[i] = st[shiftRowsSource ⟨i, hi⟩] := by
  simp [shiftRows]

@[simp] theorem getElem_mixColumns (st : BlockState) (i : Nat) (hi : i < 16) :
    (mixColumns st)[i] = (mixColumn (column st (colOf ⟨i, hi⟩)))[rowOf ⟨i, hi⟩] := by
  simp [mixColumns]

@[simp] theorem getElem_subWord (rom : Memory) (w : Word) (i : Nat) (hi : i < 4) :
    (subWord rom w)[i] = rom.read w[i] := by
  simp [subWord]

/-- Column `c` of the result is `mixColumn` of column `c` (R178). -/
theorem column_mixColumns (st : BlockState) (c : Fin 4) : column (mixColumns st) c = mixColumn (column st c) := by
  apply word_ext
  intro r
  simp [column, mixColumns]

end Sys2Proof.Machine
end

