-- ==== Sys2Proof/Laws/State.lean ====
section
/-! SUPPORT. One lemma per field per update of State, so that no proof unfolds a record update. -/

namespace Sys2Proof.Machine

@[simp] theorem State.reset_widths : State.reset.widths = Config.Widths.default := rfl
@[simp] theorem State.reset_rom : State.reset.rom = [] := rfl
@[simp] theorem State.reset_inputs : State.reset.inputs = [] := rfl
@[simp] theorem State.reset_responses : State.reset.responses = [] := rfl

@[simp] theorem State.answer_widths (s : State) (r : Response) : (s.answer r).widths = s.widths := rfl
@[simp] theorem State.answer_rom (s : State) (r : Response) : (s.answer r).rom = s.rom := rfl
@[simp] theorem State.answer_inputs (s : State) (r : Response) : (s.answer r).inputs = s.inputs := rfl
@[simp] theorem State.answer_responses (s : State) (r : Response) :
    (s.answer r).responses = s.responses ++ [r] := rfl

@[simp] theorem State.issue_widths (s : State) (x : HostInput) : (s.issue x).widths = s.widths := rfl
@[simp] theorem State.issue_rom (s : State) (x : HostInput) : (s.issue x).rom = s.rom := rfl
@[simp] theorem State.issue_inputs (s : State) (x : HostInput) : (s.issue x).inputs = s.inputs ++ [x] := rfl
@[simp] theorem State.issue_responses (s : State) (x : HostInput) : (s.issue x).responses = s.responses := rfl

@[simp] theorem State.issueWordFirst_widths (s : State) (w : Nat) : (s.issueWordFirst w).widths = s.widths := rfl
@[simp] theorem State.issueWordFirst_rom (s : State) (w : Nat) : (s.issueWordFirst w).rom = s.rom := rfl
@[simp] theorem State.issueWordFirst_inputs (s : State) (w : Nat) :
    (s.issueWordFirst w).inputs = .command (requestOfWord w) :: s.inputs := rfl
@[simp] theorem State.issueWordFirst_responses (s : State) (w : Nat) :
    (s.issueWordFirst w).responses = s.responses := rfl

/-- Delivering a response and issuing an input touch different fields. -/
theorem State.answer_issue_comm (s : State) (r : Response) (x : HostInput) :
    (s.answer r).issue x = (s.issue x).answer r := rfl

end Sys2Proof.Machine
end

