-- ==== Sys2Proof/Laws/Ops.lean ====
section
/-! SUPPORT. What each shared operation can do, said once. -/

namespace Sys2Proof.Machine

/-- `returnOk` goes on, with the result delivered and nothing else changed; it does nothing else. -/
theorem returnOk_eq_next_iff (v : Result) (s t : State) : returnOk v s = .next t ↔ t = s.answer (.ok v) := by
  simp [returnOk, eq_comm]

/-- `raiseInvalidInput` goes on, with the error of R221 delivered and nothing else changed. -/
theorem raiseInvalidInput_eq_next_iff (n : Nat) (txt : Text) (s t : State) :
    raiseInvalidInput n txt s = .next t ↔
      t = s.answer (.invalidInput n txt.length (errLen n txt) (errChar txt)) := by
  simp [raiseInvalidInput, eq_comm]

/-- `raiseIllegalOp` goes on, with `IllegalOp` delivered and nothing else changed. -/
theorem raiseIllegalOp_eq_next_iff (s t : State) : raiseIllegalOp s = .next t ↔ t = s.answer .illegalOp := by
  simp [raiseIllegalOp, eq_comm]

theorem idle_eq_next_iff (s t : State) : idle s = .next t ↔ t = s := by simp [idle, eq_comm]

theorem coreReset_eq_next_iff (s t : State) : coreReset s = .next t ↔ t = s := by simp [coreReset, eq_comm]

theorem fetchInput_of_nil {s : State} (h : s.inputs = []) : fetchInput s = none := by simp [fetchInput, h]

theorem fetchInput_of_cons {s : State} {x : HostInput} {rest : List HostInput} (h : s.inputs = x :: rest) :
    fetchInput s = some (x, { s with inputs := rest }) := by simp [fetchInput, h]

/-- An input is taken exactly when it is the oldest one issued; the rest of the state stays. -/
theorem fetchInput_eq_some_iff (s s' : State) (x : HostInput) :
    fetchInput s = some (x, s') ↔ s.inputs = x :: s'.inputs ∧ s' = { s with inputs := s'.inputs } := by
  rcases s with ⟨widths, rom, _ | ⟨y, rest⟩, rs⟩ <;> rcases s' with ⟨widths', rom', inputs', rs'⟩
  · simp [fetchInput]
  · simp only [fetchInput, Option.some.injEq, Prod.mk.injEq, State.mk.injEq, List.cons.injEq]
    constructor
    · rintro ⟨rfl, rfl, rfl, rfl, rfl⟩; simp
    · rintro ⟨⟨rfl, rfl⟩, rfl, rfl, -, rfl⟩; simp

/-- The flags of R124, in words. -/
theorem errLen_iff (n : Nat) (txt : Text) : errLen n txt = true ↔ txt.length ≠ n := by simp [errLen]

theorem errChar_iff (txt : Text) : errChar txt = true ↔ ∃ c ∈ txt, isHex c = false := by simp [errChar]

/-- A parser goes through exactly on a text of `n` digits (R124). -/
theorem parseFails_eq_false_iff (n : Nat) (txt : Text) :
    parseFails n txt = false ↔ txt.length = n ∧ ∀ c ∈ txt, isHex c = true := by
  simp [parseFails, errLen, errChar]

end Sys2Proof.Machine
end

