-- ==== Sys2Proof/Laws/Exec.lean ====
section
/-! SUPPORT. What `exec`, `serve` and `step` can do, said once: deliver at most one response and nothing else. -/

namespace Sys2Proof.Machine

/-- The response of an operation, as a function of the operation and the table. -/
def respond (rom : Memory) : Instr → Response
  | .shiftenc txt key => .ok (.text (shiftText .encrypt txt key))
  | .shiftdec txt key => .ok (.text (shiftText .decrypt txt key))
  | .parsehex txt =>
      if parseFails 32 txt then .invalidInput 32 txt.length (errLen 32 txt) (errChar txt)
      else .ok (.block (hexBytes 16 txt))
  | .subbytes st => .ok (.block (subBytes rom st))
  | .shiftrows st => .ok (.block (shiftRows st))
  | .mixcols st => .ok (.block (mixColumns st))
  | .parseword txt =>
      if parseFails 8 txt then .invalidInput 8 txt.length (errLen 8 txt) (errChar txt)
      else .ok (.word (hexBytes 4 txt))
  | .nextword prev four rcon =>
      .ok (.keyWord (xorWord (xorWord (subWord rom (rotWord four)) rcon) prev) (rotWord four)
        (subWord rom (rotWord four)) (xorWord (subWord rom (rotWord four)) rcon))
  | .fmtbyte b => .ok (.text (formatByte b))

/-- The one fact about `exec`: it delivers the operation's response. -/
theorem exec_eq_answer (i : Instr) (s : State) : exec i s = .next (s.answer (respond s.rom i)) := by
  cases i
  case parsehex txt => simp only [exec, execParsehex, respond]; split <;> rfl
  case parseword txt => simp only [exec, execParseword, respond]; split <;> rfl
  all_goals rfl

/-- What an input is answered with: nothing for a reset or a cut command. -/
def respondInput (p : Config.Widths) (rom : Memory) : HostInput → Option Response
  | .command r =>
      match decode p r with
      | .ok i => some (respond rom i)
      | .error _ => some .illegalOp
  | .reset => none
  | .commandCutByReset _ => none

/-- The one fact about `serve`: it delivers the input's response, if it has one. -/
theorem serve_eq (x : HostInput) (s : State) :
    serve x s = .next { s with responses := s.responses ++ (respondInput s.widths s.rom x).toList } := by
  cases x with
  | command r =>
    simp only [serve, respondInput]
    cases decode s.widths r with
    | ok i => exact exec_eq_answer i s
    | error e => rfl
  | reset => simp [serve, coreReset, respondInput]
  | commandCutByReset r => simp [serve, coreReset, respondInput]

theorem step_of_nil {s : State} (h : s.inputs = []) : step s = .next s := by
  simp [step, fetchInput_of_nil h, idle]

/-- A step with an input issued takes the oldest and serves it. -/
theorem step_of_cons {s : State} {x : HostInput} {rest : List HostInput} (h : s.inputs = x :: rest) :
    step s = serve x { s with inputs := rest } := by
  simp [step, fetchInput_of_cons h]

/-- The one fact about `step` with an input issued: the input is taken and its response, if it has one, delivered. -/
theorem step_eq_next_of_cons {s : State} {x : HostInput} {rest : List HostInput} (h : s.inputs = x :: rest) :
    step s = .next { s with
      inputs := rest, responses := s.responses ++ (respondInput s.widths s.rom x).toList } := by
  rw [step_of_cons h, serve_eq]

end Sys2Proof.Machine
end

