-- ==== Sys2Proof/Laws/PerInstr.lean ====
section
/-! SUPPORT. Statements for all instructions, made per instruction. -/

/-! The family `EncodeSelects`: the request that expresses an instruction carries that operation's code, so the
decoder answers that operation whatever the operands and the widths are (R61, R74). -/

namespace Sys2Proof.Laws.EncodeSelects

open Sys2Proof Sys2Proof.Machine

def Statement (i : Instr) : Prop :=
  ∀ p : Config.Widths, decode p (encode p i) = .ok (assemble p i.operation (encode p i))

theorem shiftenc (txt : Text) (key : Int) : Statement (.shiftenc txt key) := fun _ => decode_of_op_eq_codeOf rfl

theorem shiftdec (txt : Text) (key : Int) : Statement (.shiftdec txt key) := fun _ => decode_of_op_eq_codeOf rfl

theorem parsehex (txt : Text) : Statement (.parsehex txt) := fun _ => decode_of_op_eq_codeOf rfl

theorem subbytes (st : BlockState) : Statement (.subbytes st) := fun _ => decode_of_op_eq_codeOf rfl

theorem shiftrows (st : BlockState) : Statement (.shiftrows st) := fun _ => decode_of_op_eq_codeOf rfl

theorem mixcols (st : BlockState) : Statement (.mixcols st) := fun _ => decode_of_op_eq_codeOf rfl

theorem parseword (txt : Text) : Statement (.parseword txt) := fun _ => decode_of_op_eq_codeOf rfl

theorem nextword (prev four rcon : Word) : Statement (.nextword prev four rcon) := fun _ => decode_of_op_eq_codeOf rfl

theorem fmtbyte (b : Byte) : Statement (.fmtbyte b) := fun _ => decode_of_op_eq_codeOf rfl

end Sys2Proof.Laws.EncodeSelects
end

