-- ==== Sys2Proof/Laws/Rom.lean ====
section
/-! SUPPORT. The ROM: its canonical form and what a read gives. -/

namespace Sys2Proof.Machine

/-- The default table lists nothing. -/
@[simp] theorem Memory.read_nil (a : Byte) : Memory.read [] a = defaultSbox a := rfl

theorem Memory.wf_nil : Memory.wf [] = true := rfl

theorem sboxRow0_length : sboxRow0.length = 16 := rfl
theorem sboxRow1_length : sboxRow1.length = 16 := rfl
theorem sboxRow2_length : sboxRow2.length = 16 := rfl
theorem sboxRow3_length : sboxRow3.length = 16 := rfl
theorem sboxRow4_length : sboxRow4.length = 16 := rfl
theorem sboxRow5_length : sboxRow5.length = 16 := rfl
theorem sboxRow6_length : sboxRow6.length = 16 := rfl
theorem sboxRow7_length : sboxRow7.length = 16 := rfl
theorem sboxRow8_length : sboxRow8.length = 16 := rfl
theorem sboxRow9_length : sboxRow9.length = 16 := rfl
theorem sboxRowA_length : sboxRowA.length = 16 := rfl
theorem sboxRowB_length : sboxRowB.length = 16 := rfl
theorem sboxRowC_length : sboxRowC.length = 16 := rfl
theorem sboxRowD_length : sboxRowD.length = 16 := rfl
theorem sboxRowE_length : sboxRowE.length = 16 := rfl
theorem sboxRowF_length : sboxRowF.length = 16 := rfl

/-- The table has an entry for every Byte (R40). -/
theorem sboxTable_length : sboxTable.length = 256 := by
  simp [sboxTable, sboxRow0_length, sboxRow1_length, sboxRow2_length, sboxRow3_length,
    sboxRow4_length, sboxRow5_length, sboxRow6_length, sboxRow7_length,
    sboxRow8_length, sboxRow9_length, sboxRowA_length, sboxRowB_length,
    sboxRowC_length, sboxRowD_length, sboxRowE_length, sboxRowF_length]

/-- `ofTable` keeps the canonical form. -/
theorem Memory.ofTable_wf (f : Byte → Byte) : (Memory.ofTable f).wf = true := by
  have hsorted : ((Memory.ofTable f).map Prod.fst).Pairwise (· < ·) := by
    rw [List.pairwise_map]
    refine List.Pairwise.filterMap _ ?_ List.pairwise_lt_range
    intro a a' haa b hb b' hb'
    simp only [Option.ite_none_left_eq_some] at hb hb'
    obtain ⟨-, hb⟩ := hb
    obtain ⟨-, hb'⟩ := hb'
    cases hb; cases hb'; exact haa
  have hcells : ∀ cell ∈ Memory.ofTable f,
      cell.1 < 256 ∧ cell.2 ≠ defaultSbox (BitVec.ofNat 8 cell.1) := by
    intro cell hcell
    simp only [Memory.ofTable, romAddresses, List.mem_filterMap, List.mem_range,
      Option.ite_none_left_eq_some] at hcell
    obtain ⟨a, ha, hne, heq⟩ := hcell
    cases heq; exact ⟨ha, hne⟩
  simp only [Memory.wf, Bool.and_eq_true, decide_eq_true_eq, List.all_eq_true, bne_iff_ne, ne_eq]
  exact ⟨hsorted, hcells⟩

/-- Looking an address up in a list made by `filterMap` over addresses. -/
theorem lookup_filterMap_cells (g : Nat → Option Byte) (l : List Nat) (n : Nat) :
    (l.filterMap fun a => (g a).map fun b => (a, b)).lookup n = if n ∈ l then g n else none := by
  induction l with
  | nil => simp
  | cons a l ih =>
    cases hg : g a with
    | none =>
      simp only [List.filterMap_cons, hg, Option.map_none, ih, List.mem_cons]
      by_cases hn : n = a
      · subst hn; simp [hg]
      · simp [hn]
    | some b =>
      simp only [List.filterMap_cons, hg, Option.map_some, List.lookup_cons, ih, List.mem_cons]
      by_cases hn : n = a
      · subst hn; simp [hg]
      · have hne : (n == a) = false := by simpa using hn
        simp [hn, hne]

/-- The ROM built for a table reads as that table. -/
theorem Memory.read_ofTable (f : Byte → Byte) (a : Byte) : (Memory.ofTable f).read a = f a := by
  have hcells : Memory.ofTable f = romAddresses.filterMap fun n =>
      (if f (BitVec.ofNat 8 n) = defaultSbox (BitVec.ofNat 8 n) then none
        else some (f (BitVec.ofNat 8 n))).map fun b => (n, b) := by
    unfold Memory.ofTable
    congr 1; funext n
    by_cases h : f (BitVec.ofNat 8 n) = defaultSbox (BitVec.ofNat 8 n) <;> simp [h]
  have hmem : a.toNat ∈ romAddresses := by simp [romAddresses, a.isLt]
  have hcast : BitVec.ofNat 8 a.toNat = a := by simp
  unfold Memory.read
  rw [hcells, lookup_filterMap_cells, if_pos hmem, hcast]
  by_cases h : f a = defaultSbox a <;> simp [h]

/-- The default table, built as any other, lists nothing. -/
theorem Memory.ofTable_default : Memory.ofTable defaultSbox = [] := by
  unfold Memory.ofTable
  rw [List.filterMap_eq_nil_iff]
  intro a _
  exact if_pos rfl

/-- The position of a Byte in the default table. -/
def defaultSboxPosition (b : Byte) : Byte := BitVec.ofNat 8 (sboxTable.idxOf b)

theorem defaultSboxPosition_defaultSbox : ∀ a : Byte, defaultSboxPosition (defaultSbox a) = a := by
  decide +kernel

theorem defaultSbox_defaultSboxPosition : ∀ a : Byte, defaultSbox (defaultSboxPosition a) = a := by
  decide +kernel

/-- The default table is a bijection (R142, R145): it has an inverse on all 256 Bytes. -/
theorem defaultSbox_bijective : Function.Bijective defaultSbox :=
  Function.bijective_iff_has_inverse.mpr
    ⟨defaultSboxPosition, defaultSboxPosition_defaultSbox, defaultSbox_defaultSboxPosition⟩

end Sys2Proof.Machine
end

