-- ==== Sys2Proof/Tests/Slice0.lean ====
section
/-! SUPPORT. Tests of the model: ill-formed commands, words written out from R61 and R63, one step of each operation on
values of 95_test_vectors.md, and for each obligation with hypotheses a witness that meets them all. -/

namespace Sys2Proof.Tests

open Sys2Proof Sys2Proof.Machine Sys2Proof.Config

set_option Elab.async false

/-- The default widths. -/
abbrev dw : Widths := Widths.default

/-- The narrowest widths 92_eei_decisions.md allows: 7, 1 and 6. -/
abbrev narrow : Widths := { charW := 7, keyW := 1, lenW := 6 }

/-- The state after reset with one command issued. -/
def issued (i : Instr) : State := State.reset.issue (.command (encode dw i))

/-- The responses after one step. -/
def answers (s : State) : List Response :=
  match step s with
  | .next t => t.responses
  | .fault _ => []
  | .refused _ => []

/-! ## WellFormed refuses what the ports cannot carry -/

theorem test_wf_refuses_wide_character : (Instr.shiftenc [0x41, 256] 0).wf dw = false := by decide
theorem test_wf_refuses_wide_character_to_parse : (Instr.parseword [256]).wf dw = false := by decide
theorem test_wf_refuses_large_key : (Instr.shiftenc [] 2147483648).wf dw = false := by decide
theorem test_wf_refuses_small_key : (Instr.shiftdec [] (-2147483649)).wf dw = false := by decide
/-- The shortest text that is too long for the ports: 2^LEN_W digits. -/
def longText : Text := List.replicate (2 ^ 16) 0x30
theorem longText_does_not_fit : lengthFits dw longText = false := by
  rw [lengthFits, longText, List.length_replicate]; decide
theorem test_wf_refuses_long_text : (Instr.parsehex longText).wf dw = false := by
  simp only [Instr.wf, textWf, longText_does_not_fit, Bool.and_false]
theorem test_wf_accepts_largest_key : (Instr.shiftenc [255] 2147483647).wf dw = true := by decide
theorem test_wf_accepts_smallest_key : (Instr.shiftdec [0] (-2147483648)).wf dw = true := by decide

/-! ## Decoding: words and ports written out from R61, R63 and R45 -/

/-- R61: the nine codes, R68: an unassigned one; bits above `op` are no part of the word (R60). -/
theorem test_decode_words :
    ([0b0001, 0b0010, 0b0011, 0b0100, 0b0101, 0b0110, 0b0111, 0b1000, 0b1001, 0b1010].map fun w =>
      (decodeTableWord 8 w).map Instr.operation) =
    [some .shiftenc, some .shiftdec, some .parsehex, some .subbytes, some .shiftrows, some .mixcols,
      some .parseword, some .nextword, some .fmtbyte, none] := by decide

theorem test_decode_shiftenc :
    decode dw { Request.bare 0b0001 with txt := [0x5A], key := 0xFFFFFFFF } = .ok (.shiftenc [0x5A] (-1)) := by
  rfl
theorem test_decode_shiftdec :
    decode dw { Request.bare 0b0010 with txt := [0x41], key := 0x80000000 } =
      .ok (.shiftdec [0x41] (-2147483648)) := by rfl
theorem test_decode_parsehex :
    decode dw { Request.bare 0b0011 with txt := [0x30, 0xC9] } = .ok (.parsehex [0x30, 0xC9]) := by rfl
theorem test_decode_subbytes :
    decode dw { Request.bare 0b0100 with stIn := 0x000102030405060708090A0B0C0D0E0F#128 } =
      .ok (.subbytes #v[0x00, 0x01, 0x02, 0x03, 0x04, 0x05, 0x06, 0x07, 0x08, 0x09, 0x0A, 0x0B, 0x0C, 0x0D, 0x0E,
        0x0F]) := by rfl
theorem test_decode_shiftrows :
    decode dw { Request.bare 0b0101 with stIn := 0xEA125A00044513110CF19819082319C5#128 } =
      .ok (.shiftrows #v[0xEA, 0x12, 0x5A, 0x00, 0x04, 0x45, 0x13, 0x11, 0x0C, 0xF1, 0x98, 0x19, 0x08, 0x23, 0x19,
        0xC5]) := by rfl
theorem test_decode_mixcols :
    decode dw { Request.bare 0b0110 with stIn := 0x01#128 } =
      .ok (.mixcols #v[0, 0, 0, 0, 0, 0, 0, 0, 0, 0, 0, 0, 0, 0, 0, 1]) := by rfl
theorem test_decode_parseword :
    decode dw { Request.bare 0b0111 with txt := [0x31, 0x41] } = .ok (.parseword [0x31, 0x41]) := by rfl
theorem test_decode_nextword :
    decode dw { Request.bare 0b1000 with wPrev := 0x1A91F720#32, wFour := 0x10000000#32, wRcon := 0x01000002#32 } =
      .ok (.nextword #v[0x1A, 0x91, 0xF7, 0x20] #v[0x10, 0, 0, 0] #v[0x01, 0, 0, 0x02]) := by rfl
theorem test_decode_fmtbyte :
    decode dw { Request.bare 0b1001 with bIn := 0xA0#8 } = .ok (.fmtbyte 0xA0#8) := by rfl
/-- R64 on a 16-bit character port and a 6-bit key port: the code whole, and the key's sign in bit 5. -/
theorem test_decode_other_widths :
    decode { charW := 16, keyW := 6, lenW := 16 } { Request.bare 0b0001 with txt := [0x141], key := 0b100001 } =
      .ok (.shiftenc [0x141] (-31)) := by rfl

/-! ## One step of each operation, on values of 95_test_vectors.md -/

/-- T-SC 14: the smallest key, floor-style modulo. -/
theorem test_shiftenc_smallest_key :
    answers (issued (.shiftenc [0x41, 0x7A] (-2147483648))) = [.ok (.text [0x43, 0x62])] := by decide
/-- T-SC 15, 16 and V1: the neighbours of the letter ranges and a code above 0x7F pass; 'Z' wraps. -/
theorem test_shiftenc_only_letters :
    answers (issued (.shiftenc [0x40, 0x5B, 0x60, 0x7B, 0xC9, 0x5A] 1)) =
      [.ok (.text [0x40, 0x5B, 0x60, 0x7B, 0xC9, 0x41])] := by decide
/-- T-SC 20: 0 - 1 = -1, and fmod gives 25. -/
theorem test_shiftdec_wraps : answers (issued (.shiftdec [0x41, 0x61] 1)) = [.ok (.text [0x5A, 0x7A])] := by decide
/-- T-SC 18, its first word: "THE" by 23 gives "WKH". -/
theorem test_shiftdec_the :
    answers (issued (.shiftdec [0x54, 0x48, 0x45] 23)) = [.ok (.text [0x57, 0x4B, 0x48])] := by decide

/-- V3's thirty-two characters, in the mixed case of T-PH 3. -/
def mixedCaseText : Text :=
  [0x65, 0x41, 0x31, 0x32, 0x35, 0x61, 0x30, 0x30, 0x30, 0x34, 0x34, 0x35, 0x31, 0x33, 0x31, 0x31,
   0x30, 0x43, 0x66, 0x31, 0x39, 0x38, 0x31, 0x39, 0x30, 0x38, 0x32, 0x33, 0x31, 0x39, 0x63, 0x35]

/-- T-PH 3. -/
theorem test_parsehex_mixed_case :
    answers (issued (.parsehex mixedCaseText)) =
      [.ok (.block (unpackBlock 0xEA125A00044513110CF19819082319C5#128))] := by decide +kernel
/-- T-PH 8 and 12: one digit too many; two characters too many, one of them 'x'. -/
theorem test_parsehex_errors :
    answers (issued (.parsehex (mixedCaseText ++ [0x30]))) = [.invalidInput 32 33 true false] ∧
    answers (issued (.parsehex ([0x30, 0x78] ++ mixedCaseText))) = [.invalidInput 32 34 true true] := by
  decide +kernel
/-- T-PH 23: "09AFaf00". -/
theorem test_parseword_values :
    answers (issued (.parseword [0x30, 0x39, 0x41, 0x46, 0x61, 0x66, 0x30, 0x30])) =
      [.ok (.word (unpackWord 0x09AFAF00#32))] := by decide
/-- T-PH 19 and 20: "1A91F72Z" and the empty text. -/
theorem test_parseword_errors :
    answers (issued (.parseword [0x31, 0x41, 0x39, 0x31, 0x46, 0x37, 0x32, 0x5A])) = [.invalidInput 8 8 false true] ∧
    answers (issued (.parseword [])) = [.invalidInput 8 0 true false] := by decide
/-- T-SB 1. -/
theorem test_subbytes_reset_table :
    answers (issued (.subbytes (unpackBlock 0xEA125A00044513110CF19819082319C5#128))) =
      [.ok (.block (unpackBlock 0x87C9BE63F26E7D82FEA146D43026D4A6#128))] := by decide +kernel
/-- R10: another table is read where its cells are listed. -/
theorem test_subbytes_other_table :
    answers { issued (.subbytes (unpackBlock 0x00#128)) with rom := [(0, 0xAB#8)] } =
      [.ok (.block (unpackBlock 0xABABABABABABABABABABABABABABABAB#128))] := by decide +kernel
/-- T-SR 1 and 5. -/
theorem test_shiftrows_vectors :
    answers (issued (.shiftrows (unpackBlock 0xEA125A00044513110CF19819082319C5#128))) =
      [.ok (.block (unpackBlock 0xEA4598C504F119000C235A1108121319#128))] ∧
    answers (issued (.shiftrows (unpackBlock 0x000102030405060708090A0B0C0D0E0F#128))) =
      [.ok (.block (unpackBlock 0x00050A0F04090E03080D02070C01060B#128))] := by decide +kernel
/-- T-MC 25: four columns, each transformed alone. -/
theorem test_mixcols_columns :
    answers (issued (.mixcols (unpackBlock 0xDB135345F20A225C01010101C6C6C6C6#128))) =
      [.ok (.block (unpackBlock 0x8E4DA1BC9FDC589D01010101C6C6C6C6#128))] := by decide +kernel
/-- T-MC 18. -/
theorem test_mixcols_state :
    answers (issued (.mixcols (unpackBlock 0xEA125A00044513110CF19819082319C5#128))) =
      [.ok (.block (unpackBlock 0xA3204C6DC5AA5478915FFD4FA9A04DB3#128))] := by decide +kernel
/-- T-KW 3: `four` is rotated and substituted, not `prev`. -/
theorem test_nextword_rotates_four :
    answers (issued (.nextword (unpackWord 0x2B7E1516) (unpackWord 0x09CF4F3C) (unpackWord 0x01000000))) =
      [.ok (.keyWord (unpackWord 0xA0FAFE17) (unpackWord 0xCF4F3C09) (unpackWord 0x8A84EB01)
        (unpackWord 0x8B84EB01))] := by decide +kernel
/-- T-KW 5. -/
theorem test_nextword_all_ones :
    answers (issued (.nextword (unpackWord 0xFFFFFFFF) (unpackWord 0x01234567) (unpackWord 0x36000000))) =
      [.ok (.keyWord (unpackWord 0xEF917A83) (unpackWord 0x23456701) (unpackWord 0x266E857C)
        (unpackWord 0x106E857C))] := by decide +kernel
/-- T-FB: 0x0A and 0x9F. -/
theorem test_fmtbyte_digits :
    answers (issued (.fmtbyte 0x0A#8)) = [.ok (.text [0x30, 0x41])] ∧
    answers (issued (.fmtbyte 0x9F#8)) = [.ok (.text [0x39, 0x46])] := by decide
/-- T-IL: 0x0 and 0xF, whatever the other ports carry. -/
theorem test_unassigned_codes :
    answers (State.reset.issue (.command { Request.bare 0x0 with txt := [0x41], key := 7 })) = [.illegalOp] ∧
    answers (State.reset.issue (.command { Request.bare 0xF with bIn := 0xFF#8 })) = [.illegalOp] := by decide
/-- P5 (a): the ports of an InvalidInput; no result port is driven. -/
theorem test_ports_of_invalid_input :
    (Response.invalidInput 32 33 true false).drive dw =
      { ResponsePorts.bare 1 with expLen := some 32, actLen := some 33, errLen := some 1, errChar := some 0 } := by
  decide
/-- V3: `st_out` on the bus. -/
theorem test_ports_of_a_block :
    ((Response.ok (.block #v[0xEA, 0x12, 0x5A, 0x00, 0x04, 0x45, 0x13, 0x11, 0x0C, 0xF1, 0x98, 0x19, 0x08, 0x23, 0x19,
      0xC5])).drive dw).stOut = some 0xEA125A00044513110CF19819082319C5#128 := by decide
/-- The next step runs the word placed by `withFetchWord`, and the state is otherwise as it was. -/
theorem test_withFetchWord_runs_first :
    answers ((issued (.fmtbyte 1)).withFetchWord 8 0b0111) = [.invalidInput 8 0 true false] := by decide

/-! ## Witnesses: every obligation with hypotheses has a case that meets them all -/

/-- Reset with the FMTBYTE command 0x0A issued, and after the step. -/
def before : State := issued (.fmtbyte 0x0A#8)
def after : State := State.reset.answer (.ok (.text [0x30, 0x41]))

theorem witness_step : step before = .next after := rfl

theorem witness_reset_inv : State.reset.Inv :=
  ⟨rfl, rfl, defaultSbox_bijective, by decide, by decide⟩

theorem witness_StepKeepsTheInvariant : before.Inv ∧ step before = .next after :=
  ⟨{ widthsWf := rfl, romWf := rfl, romBijective := defaultSbox_bijective, inputsExpressible := by decide,
     responsesLegal := by decide }, witness_step⟩

/-- A reached state with other widths, another table, an input and a response: power on with the identity table, one
command. -/
theorem witness_ReachableStatesSatisfyTheInvariant :
    ∃ s : State, Reachable s ∧ s.widths = narrow ∧ s.rom ≠ [] ∧ s.responses = [.ok (.text [0x30, 0x30])] :=
  ⟨{ widths := narrow, rom := Memory.ofTable id, inputs := [], responses := [.ok (.text [0x30, 0x30])] },
    .step ({ State.reset with widths := narrow, rom := Memory.ofTable id }.issue (.command (Request.bare 0x9))) _
      (.issue _ _ (.powerOn narrow (by decide) id Function.bijective_id) (by decide)) rfl, rfl, by decide +kernel,
    rfl⟩

theorem witness_StepRunsTheDecodedCommand :
    before.inputs = .command (encode dw (.fmtbyte 0x0A#8)) :: [] ∧
    decode dw (encode dw (.fmtbyte 0x0A#8)) = .ok (.fmtbyte 0x0A#8) := ⟨rfl, rfl⟩

theorem witness_WithoutACommandNothingChanges :
    State.reset.inputs = [] ∧
    (State.reset.issue .reset).inputs = .reset :: [] ∧
    (State.reset.issue (.commandCutByReset (Request.bare 0x4))).inputs =
      .commandCutByReset (Request.bare 0x4) :: [] := ⟨rfl, rfl, rfl⟩

/-- One witness for the command, one for the decoder's yes with an `Ok`, one for its no. -/
theorem witness_EveryCommandGetsExactlyOneResponse :
    before.inputs = .command (encode dw (.fmtbyte 0x0A#8)) :: [] ∧
    decode dw (encode dw (.fmtbyte 0x0A#8)) = .ok (.fmtbyte 0x0A#8) ∧
    answers before = [.ok (.text [0x30, 0x41])] ∧
    (State.reset.issue (.command (Request.bare 0xA))).inputs = .command (Request.bare 0xA) :: [] ∧
    decode dw (Request.bare 0xA) = .error (.unassignedOp 0xA) := ⟨rfl, rfl, by decide, rfl, rfl⟩

/-- T-ST: SUBBYTES with other values on the ports it does not read, after another history. -/
theorem witness_ResponseDependsOnlyOnTheCommand :
    let r := Request.bare 0x4
    let r' := { Request.bare 0x4 with txt := [0x47], key := 0xFFFFFFFF }
    let s := State.reset.issue (.command r)
    let s' := after.issue (.command r')
    s.widths = s'.widths ∧ (∀ a : Byte, s.rom.read a = s'.rom.read a) ∧
    s.inputs = .command r :: [] ∧ s'.inputs = .command r' :: [] ∧ r.op = r'.op ∧
    (∀ row : OpRow, selectRow r.op = some row → ∀ p ∈ row.reads, r.agreeOn r' p) := by
  refine ⟨rfl, fun _ => rfl, rfl, rfl, rfl, fun row h p hp => ?_⟩
  injection h with h
  subst h
  match p, List.mem_singleton.mp hp with
  | .stIn, _ => exact (rfl : (0 : BitVec 128) = 0)

/-- Two tables that differ at address 5 only, and an operation that does not read it. -/
theorem witness_OnlyTheListedTableEntriesAreRead :
    (∀ a ∈ romReads (.subbytes (unpackBlock 0)), Memory.read [] a = Memory.read [(5, 0x00#8)] a) ∧
    Memory.read [] 5#8 ≠ Memory.read [(5, 0x00#8)] 5#8 ∧
    (Instr.mixcols (unpackBlock 0)).operation ≠ .subbytes ∧
    (Instr.mixcols (unpackBlock 0)).operation ≠ .nextword := by decide +kernel

theorem witness_NothingWritesTheTable :
    step before = .next after ∧ exec (.fmtbyte 0x0A#8) State.reset = .next after := ⟨witness_step, rfl⟩

theorem witness_FrameOfEveryOperation : exec (.fmtbyte 0x0A#8) State.reset = .next after := rfl

/-- Two hosts' commands in both orders. -/
theorem witness_InterleavingOfHostsDoesNotMatter :
    (before.issue .reset).widths = (State.reset.issue .reset).widths ∧
    (before.issue .reset).rom = ((State.reset.issue .reset).issue (.command (encode dw (.fmtbyte 0x0A#8)))).rom ∧
    (before.issue .reset).inputs.Perm
      ((State.reset.issue .reset).issue (.command (encode dw (.fmtbyte 0x0A#8)))).inputs :=
  ⟨rfl, rfl, List.Perm.swap _ _ _⟩

/-- A failing command, then another one. -/
theorem witness_AnInputIsServedAsIfTheOneBeforeWereNeverIssued :
    let s : State := (issued (.parsehex [])).issue (.command (encode dw (.fmtbyte 1)))
    s.inputs = .command (encode dw (.parsehex [])) :: .command (encode dw (.fmtbyte 1)) :: [] ∧
    step s = .next ⟨dw, [], [.command (encode dw (.fmtbyte 1))], [.invalidInput 32 0 true false]⟩ := ⟨rfl, rfl⟩

/-- The ends of the ranges, at the default and at the narrowest widths. -/
theorem witness_DecodeOfEncodeIsTheInstruction :
    (dw.wf = true ∧ (Instr.shiftenc [0, 255] 2147483647).wf dw = true ∧
      (Instr.shiftdec [] (-2147483648)).wf dw = true ∧ (Instr.parsehex [255]).wf dw = true ∧
      (Instr.parseword []).wf dw = true ∧
      (Instr.nextword (unpackWord 1) (unpackWord 2) (unpackWord 3)).wf dw = true) ∧
    (narrow.wf = true ∧ (Instr.shiftenc [0, 127] 0).wf narrow = true ∧
      (Instr.shiftdec [] (-1)).wf narrow = true ∧ (Instr.shiftdec [] 1).wf narrow = false) := by decide

/-- The command "SHIFTENC z by -1" on ports of the default and of the narrowest widths: the key ports differ. -/
theorem witness_TheWidthsChangeNoResult :
    let i := Instr.shiftenc [0x7A] (-1)
    let s := State.reset.issue (.command (encode dw i))
    let s' := { State.reset with widths := narrow }.issue (.command (encode narrow i))
    (s.widths.wf = true ∧ s'.widths.wf = true ∧ s.rom = s'.rom ∧ i.wf s.widths = true ∧ i.wf s'.widths = true) ∧
    s.inputs = .command (encode s.widths i) :: [] ∧ s'.inputs = .command (encode s'.widths i) :: [] ∧
    (encode dw i).key = 0xFFFFFFFF ∧ (encode narrow i).key = 1 ∧
    answers s = [.ok (.text [0x79])] ∧ answers s' = [.ok (.text [0x79])] :=
  ⟨by decide, rfl, rfl, by decide, by decide, by decide, by decide⟩

theorem witness_AtMostOneRowIsSelected :
    ∃ a ∈ opTable, (0x9 : BitVec 4) &&& a.mask = a.code := by decide

/-- Each clause at the ends of its range of codes. -/
theorem witness_UnassignedCodesGetIllegalOp :
    (∀ c : BitVec 4, (State.reset.issue (.command (Request.bare c))).inputs = .command (Request.bare c) :: []) ∧
    (0xA ≤ (Request.bare 0xA).op.toNat ∧ 0xA ≤ (Request.bare 0xF).op.toNat ∧ (Request.bare 0x0).op = 0x0) ∧
    (1 ≤ (Request.bare 0x1).op.toNat ∧ (Request.bare 0x9).op.toNat ≤ 9 ∧
      step (State.reset.issue (.command (Request.bare 0x1))) =
        .next (State.reset.answer (.ok (.text []))) ∧
      step (State.reset.issue (.command (Request.bare 0x9))) =
        .next (State.reset.answer (.ok (.text [0x30, 0x30])))) :=
  ⟨fun _ => rfl, by decide, by decide, by decide, rfl, rfl⟩

theorem witness_OperandsComeFromTheListedPorts :
    dw.wf = true ∧ ({ Request.bare 0x1 with txt := [255], key := 0xFFFFFFFF } : Request).expressible dw = true ∧
    narrow.wf = true ∧ ({ Request.bare 0x1 with txt := [127], key := 1 } : Request).expressible narrow = true ∧
    (Request.bare 0x1).op = 0x1 ∧ (Request.bare 0x2).op = 0x2 ∧ (Request.bare 0x3).op = 0x3 ∧
    (Request.bare 0x4).op = 0x4 ∧ (Request.bare 0x5).op = 0x5 ∧ (Request.bare 0x6).op = 0x6 ∧
    (Request.bare 0x7).op = 0x7 ∧ (Request.bare 0x8).op = 0x8 ∧ (Request.bare 0x9).op = 0x9 := by decide

/-- One command for each of the three kinds of response. -/
theorem witness_ExactlyTheListedPortsAreDriven :
    State.reset.widths.wf = true ∧
    (∀ c : BitVec 4, (State.reset.issue (.command (Request.bare c))).inputs = .command (Request.bare c) :: []) ∧
    (Request.bare 0x8).expressible dw = true ∧ (Request.bare 0x3).expressible dw = true ∧
    (Request.bare 0x0).expressible dw = true ∧
    (answers (State.reset.issue (.command (Request.bare 0x8)))).length = 1 ∧
    answers (State.reset.issue (.command (Request.bare 0x3))) = [.invalidInput 32 0 true false] ∧
    answers (State.reset.issue (.command (Request.bare 0x0))) = [.illegalOp] :=
  ⟨rfl, fun _ => rfl, by decide, by decide, by decide, by decide +kernel, by decide, by decide⟩

/-- Each kind of input, after an earlier response. -/
theorem witness_OutputsAreThoseOfTheResponseAtHand :
    after.inputs = [] ∧ (after.issue .reset).inputs = .reset :: [] ∧
    (after.issue (.commandCutByReset (Request.bare 0x9))).inputs = .commandCutByReset (Request.bare 0x9) :: [] ∧
    (after.issue (.command (Request.bare 0x9))).inputs = .command (Request.bare 0x9) :: [] ∧
    after.responses ≠ [] := ⟨rfl, rfl, rfl, rfl, by decide⟩

/-- R29, R70: nothing is shown after a reset, whatever was answered before; the next command shows its own response. -/
theorem test_outputs_after_reset :
    (after.issue .reset).outputs = none ∧
    (after.issue (.command (Request.bare 0x9))).outputs =
      some { ResponsePorts.bare 0 with txtOut := some [0x30, 0x30] } := by decide

theorem witness_StatusValues :
    before.inputs = .command (encode dw (.fmtbyte 0x0A#8)) :: [] ∧
    ∃ row : OpRow, selectRow (encode dw (.fmtbyte 0x0A#8)).op = some row ∧ row.canFail = false ∧ row ∈ opTable :=
  ⟨rfl, ⟨"FMTBYTE", ["formatByte"], .fmtbyte, 0x9, 0xF, .oneByte, [.bIn], [.txtOut], false⟩, by decide⟩

/-- The largest code and the largest lengths a port carries. -/
theorem witness_ValuesOnTheResponsePorts :
    textWf dw [0, 255] = true ∧ (32 : Nat) < 2 ^ dw.lenW ∧ (65535 : Nat) < 2 ^ dw.lenW ∧
    textWf narrow [0, 127] = true ∧ (32 : Nat) < 2 ^ narrow.lenW ∧ (63 : Nat) < 2 ^ narrow.lenW := by decide

/-- R110's composition: "a" by 1 is "b", the hypothesis on the text in between. -/
theorem witness_ShiftKeysActModulo26 :
    (-52 : Int) % 26 = 0 ∧
    exec (.shiftenc [0x61] 1) State.reset =
      .next { State.reset with responses := State.reset.responses ++ [.ok (.text [0x62])] } := ⟨rfl, rfl⟩

theorem witness_TableLookupDecoderAgrees : (0 : Nat) < 26 ∧ (25 : Nat) < 26 := by decide

theorem witness_HexDigitsAndTheirValues :
    (0x30 ≤ 0x30 ∧ 0x39 ≤ 0x39) ∧ (0x41 ≤ 0x41 ∧ 0x46 ≤ 0x46) ∧ (0x61 ≤ 0x61 ∧ 0x66 ≤ 0x66) := by decide

theorem witness_ParsehexAnswersOn32Digits :
    mixedCaseText.length = 32 ∧ ∀ c ∈ mixedCaseText, isHex c = true := by decide

theorem witness_ParsewordAnswersOn8Digits :
    (mixedCaseText.take 8).length = 8 ∧ ∀ c ∈ mixedCaseText.take 8, isHex c = true := by decide

/-- Each disjunct of each clause: a length one off with digits only, and the right length with a bad last character. -/
theorem witness_ParsersRaiseInvalidInputOtherwise :
    (mixedCaseText.take 31).length ≠ 32 ∧ (mixedCaseText ++ [0x30]).length ≠ 32 ∧
    ((mixedCaseText.take 31 ++ [0x47]).length = 32 ∧ ∃ c ∈ mixedCaseText.take 31 ++ [0x47], isHex c = false) ∧
    (mixedCaseText.take 7).length ≠ 8 ∧ (mixedCaseText.take 9).length ≠ 8 ∧
    ((mixedCaseText.take 7 ++ [0x3A]).length = 8 ∧ ∃ c ∈ mixedCaseText.take 7 ++ [0x3A], isHex c = false) := by
  decide

theorem witness_OnlyTheParsersRaiseInvalidInput :
    exec (.parseword []) State.reset = .next (State.reset.answer (.invalidInput 8 0 true false)) ∧
    (State.reset.answer (.invalidInput 8 0 true false)).responses.getLast? =
      some (.invalidInput 8 0 true false) := ⟨rfl, rfl⟩

theorem witness_ParsersIgnoreTheCaseOfDigits :
    [0x61, 0x46, 0x30].map upperDigit = [0x41, 0x66, 0x30].map upperDigit := by decide

theorem witness_FormattingAParsedStringGivesItBack :
    (mixedCaseText.length = 32 ∧ ∀ c ∈ mixedCaseText, isHex c = true) ∧
    ((mixedCaseText.take 8).length = 8 ∧ ∀ c ∈ mixedCaseText.take 8, isHex c = true) := by decide

/-- The text that clause's unique existence speaks of, for the zero BlockState. -/
theorem witness_EveryBlockStateHasOneUpperCaseString :
    (List.replicate 32 0x30).length = 32 ∧
    exec (.parsehex (List.replicate 32 0x30)) State.reset =
      .next (State.reset.answer (.ok (.block (unpackBlock 0)))) := ⟨rfl, rfl⟩

theorem witness_SubbytesLaws : Memory.isBijection State.reset.rom := defaultSbox_bijective

/-- Column 3 of row 2 takes input column 1; row 0 stays. -/
theorem witness_ShiftrowsAnswersTheRotatedRows :
    (1 : Fin 4).val = ((3 : Fin 4).val + (2 : Fin 4).val) % 4 ∧
    (3 : Fin 4).val = ((3 : Fin 4).val + (0 : Fin 4).val) % 4 := by decide

theorem witness_ShiftrowsLaws : (1 : Fin 4).val = ((0 : Fin 4).val + 4 - (3 : Fin 4).val) % 4 := by decide

/-- T-MC 13 and 3: columns of the two forms the equivalences name. -/
theorem witness_MixcolsLaws :
    let ab := unpackBlock 0xA1B2A1B2A1B2A1B2A1B2A1B2A1B2A1B2#128
    let aa := unpackBlock 0x01010101C6C6C6C60000000001010101#128
    mixColumns (mixColumns ab) = ab ∧ mixColumns ab ≠ ab ∧ mixColumns aa = aa := by decide +kernel

theorem witness_RoundstepsIsTheThreeSteps : State.reset.inputs = [] := rfl

/-- The argument is the target's own variable, or a variable that the lines' own numbers would reach. -/
theorem witness_FormattingBindsTheJoinedText :
    State.reset.inputs = [] ∧
    (HostArg.var 0).eval [(0, .block (unpackBlock 0x00#128))] = some (.block (unpackBlock 0x00#128)) ∧
    (HostArg.fieldOf (.var 2) .out).eval
      [(2, .keyWord (unpackWord 0x69F294EA) (unpackWord 0) (unpackWord 0) (unpackWord 0))] =
      some (.word (unpackWord 0x69F294EA)) := ⟨rfl, rfl, rfl⟩

/-- P2, lines 5 to 8: `t = FMTWORD k.out` binds "69F294EA", with `k` the variable 2, which a line's own number meets. -/
theorem test_fmtword_joins :
    ((runFmtWord 7 (.fieldOf (.var 2) .out)
      [(2, .keyWord (unpackWord 0x69F294EA) (unpackWord 0) (unpackWord 0) (unpackWord 0))] State.reset).1.lookup 7) =
      some (.text [0x36, 0x39, 0x46, 0x32, 0x39, 0x34, 0x45, 0x41]) := by decide +kernel

/-- P5: a line that fails; a line whose argument is not bound; and two lines the ports cannot carry (U10): a key one
above the largest of KEY_W bits, and a code of 2^CHAR_W. -/
theorem witness_AHostProgramEndsAtTheFirstFailure :
    let l : HostLine := ⟨0, .parsehex, [.lit (.text [])]⟩
    let wide : List HostValue := [.text [0x61], .key 2147483648]
    l.command dw [] = some (.parsehex []) ∧
    step (State.reset.issue (.command (encode dw (.parsehex [])))) =
      .next (State.reset.answer (.invalidInput 32 0 true false)) ∧
    (State.reset.answer (.invalidInput 32 0 true false)).responses.getLast? =
      some (.invalidInput 32 0 true false) ∧
    (∀ v : Result, Response.invalidInput 32 0 true false ≠ .ok v) ∧
    (⟨1, .subbytes, [.var 0]⟩ : HostLine).command dw [] = none ∧ (HostArg.var 0).eval [] = none ∧
    [HostArg.lit (.text [0x61]), HostArg.lit (.key 2147483648)].map (fun a => a.eval []) = wide.map some ∧
    buildCommand .shiftenc wide = some (.shiftenc [0x61] 2147483648) ∧
    (Instr.shiftenc [0x61] 2147483648).wf State.reset.widths = false ∧
    (Instr.shiftenc [0x141] 0).wf State.reset.widths = false :=
  ⟨rfl, rfl, rfl, ⟨fun _ h => (nomatch h), rfl, rfl, rfl, rfl, by decide, by decide⟩⟩

/-- The corner cases of R195 and the reset table's example. -/
theorem witness_NextwordAnswersTheFourSteps :
    (Request.bare 0x8).op = 0x8 ∧ State.reset.rom = [] ∧
    answers (issued (.nextword (unpackWord 0x63636363) (unpackWord 0) (unpackWord 0))) =
      [.ok (.keyWord (unpackWord 0) (unpackWord 0) (unpackWord 0x63636363) (unpackWord 0x63636363))] :=
  ⟨rfl, rfl, by decide +kernel⟩

theorem witness_NextwordLaws : Memory.isBijection State.reset.rom := defaultSbox_bijective

end Sys2Proof.Tests
end

section
/-! PROOFS. R30 (10_state.md): what a response depends on. First the decoder (the ports its row reads), then the
operation (the table at the addresses it reads), then the step. -/

namespace Sys2Proof.Machine

theorem Request.text_congr (p : Config.Widths) {r r' : Request} (h : r.agreeOn r' .txt) : r.text p = r'.text p :=
  congrArg (List.map fun c => c % 2 ^ p.charW) h

theorem Request.keyInt_congr (p : Config.Widths) {r r' : Request} (h : r.agreeOn r' .key) :
    r.keyInt p = r'.keyInt p :=
  congrArg (fun k => (BitVec.ofNat p.keyW k).toInt) h

theorem Request.block_congr {r r' : Request} (h : r.agreeOn r' .stIn) : r.block = r'.block := congrArg unpackBlock h

theorem Request.prev_congr {r r' : Request} (h : r.agreeOn r' .wPrev) : r.prev = r'.prev := congrArg unpackWord h

theorem Request.four_congr {r r' : Request} (h : r.agreeOn r' .wFour) : r.four = r'.four := congrArg unpackWord h

theorem Request.rcon_congr {r r' : Request} (h : r.agreeOn r' .wRcon) : r.rcon = r'.rcon := congrArg unpackWord h

theorem Request.byte_congr {r r' : Request} (h : r.agreeOn r' .bIn) : r.byte = r'.byte := h

end Sys2Proof.Machine

namespace Sys2Proof

open Machine

theorem mem_opTable_of_selectRow {c : BitVec Config.opW} {row : OpRow} (h : selectRow c = some row) : row ∈ opTable :=
  List.mem_of_find?_eq_some h

/-- The operands of a row's operation come from the ports the row lists under `reads`: one case per row of the table,
in its order (R61, R63). -/
theorem assemble_congr {row : OpRow} (hrow : row ∈ opTable) (p : Config.Widths) {r r' : Request}
    (h : ∀ q ∈ row.reads, r.agreeOn r' q) : assemble p row.operation r = assemble p row.operation r' := by
  simp only [opTable, shiftRowsOfTable, blockRowsOfTable, wordRowsOfTable, List.cons_append, List.nil_append,
    List.mem_cons, List.not_mem_nil, or_false] at hrow
  rcases hrow with rfl | rfl | rfl | rfl | rfl | rfl | rfl | rfl | rfl
  · exact congrArg₂ Instr.shiftenc (Request.text_congr p (h .txt (by decide)))
      (Request.keyInt_congr p (h .key (by decide)))
  · exact congrArg₂ Instr.shiftdec (Request.text_congr p (h .txt (by decide)))
      (Request.keyInt_congr p (h .key (by decide)))
  · exact congrArg Instr.parsehex (Request.text_congr p (h .txt (by decide)))
  · exact congrArg Instr.subbytes (Request.block_congr (h .stIn (by decide)))
  · exact congrArg Instr.shiftrows (Request.block_congr (h .stIn (by decide)))
  · exact congrArg Instr.mixcols (Request.block_congr (h .stIn (by decide)))
  · exact congrArg Instr.parseword (Request.text_congr p (h .txt (by decide)))
  · simp only [assemble, Request.prev_congr (h .wPrev (by decide)), Request.four_congr (h .wFour (by decide)),
      Request.rcon_congr (h .wRcon (by decide))]
  · exact congrArg Instr.fmtbyte (Request.byte_congr (h .bIn (by decide)))

/-- The decoder reads the operation code and the ports of the row it selects, and nothing else (R70). -/
theorem decode_congr (p : Config.Widths) {r r' : Request} (hop : r.op = r'.op)
    (h : ∀ row : OpRow, selectRow r.op = some row → ∀ q ∈ row.reads, r.agreeOn r' q) :
    decode p r = decode p r' := by
  unfold decode
  rw [← hop]
  cases hs : selectRow r.op with
  | none => rfl
  | some row => exact congrArg Except.ok (assemble_congr (mem_opTable_of_selectRow hs) p (h row hs))

end Sys2Proof

namespace Sys2Proof.Machine

theorem subBytes_congr {rom rom' : Memory} {st : BlockState} (h : ∀ a ∈ st.toList, rom.read a = rom'.read a) :
    subBytes rom st = subBytes rom' st := by
  ext1 i hi
  simpa using h st[i] (by simp)

theorem subWord_congr {rom rom' : Memory} {w : Word} (h : ∀ a ∈ w.toList, rom.read a = rom'.read a) :
    subWord rom w = subWord rom' w := by
  ext1 i hi
  simpa using h w[i] (by simp)

/-- The response depends on the table only at the addresses the operation reads (R43, R194). -/
theorem respond_congr {rom rom' : Memory} (i : Instr) (h : ∀ a ∈ romReads i, rom.read a = rom'.read a) :
    respond rom i = respond rom' i := by
  cases i with
  | subbytes st => simp only [respond, subBytes_congr h]
  | nextword prev four rcon => simp only [respond, subWord_congr h]
  | _ => rfl

/-- Every command has a response: its operation's, or `IllegalOp` (R20, R69). -/
theorem respondInput_command (p : Config.Widths) (rom : Memory) (r : Request) :
    ∃ resp : Response, respondInput p rom (.command r) = some resp := by
  simp only [respondInput]
  split <;> exact ⟨_, rfl⟩

/-- A command's response is fixed by what its code and the ports it reads decode to and by what the table reads. -/
theorem respondInput_command_congr {p : Config.Widths} {rom rom' : Memory} {r r' : Request}
    (hrom : ∀ a : Byte, rom.read a = rom'.read a) (hdec : decode p r = decode p r') :
    respondInput p rom (.command r) = respondInput p rom' (.command r') := by
  simp only [respondInput, ← hdec]
  cases decode p r with
  | ok i => exact congrArg some (respond_congr i fun a _ => hrom a)
  | error e => rfl

/-- A step that serves an input with a response delivers it and changes nothing else. -/
theorem step_eq_next_of_respondInput {s : State} {x : HostInput} {rest : List HostInput} {resp : Response}
    (hin : s.inputs = x :: rest) (hresp : respondInput s.widths s.rom x = some resp) :
    step s = .next { s with inputs := rest, responses := s.responses ++ [resp] } := by
  rw [step_eq_next_of_cons hin, hresp, Option.toList_some]

/-- Settles O8: both commands decode to the same (`decode_congr`), so they have one and the same response. -/
theorem responseDependsOnlyOnTheCommand : Obligations.ResponseDependsOnlyOnTheCommand := by
  intro s s' r r' rest rest' hwidths hrom hin hin' hop hports
  obtain ⟨resp, hresp⟩ := respondInput_command s.widths s.rom r
  have hresp' : respondInput s'.widths s'.rom (.command r') = some resp := by
    rw [← hresp, ← hwidths, respondInput_command_congr hrom (decode_congr s.widths hop hports)]
  exact ⟨resp, step_eq_next_of_respondInput hin hresp, step_eq_next_of_respondInput hin' hresp'⟩

end Sys2Proof.Machine
end

section
/-! PROOFS. R42 (20_memory.md): nothing writes the table. First an operation, then the step that takes the input. -/

namespace Sys2Proof.Machine

/-- An operation delivers its response, and so leaves the table (R42). -/
theorem exec_keeps_rom {i : Instr} {s t : State} (h : exec i s = .next t) : t.rom = s.rom := by
  rw [exec_eq_answer] at h
  cases h
  exact State.answer_rom s _

/-- A step leaves the table: it is idle, or it takes an input (a command, a reset or a cut command) and at most
delivers a response (R42, R250). -/
theorem step_keeps_rom {s t : State} (h : step s = .next t) : t.rom = s.rom := by
  cases hin : s.inputs with
  | nil =>
    rw [step_of_nil hin] at h
    cases h
    rfl
  | cons x rest =>
    rw [step_eq_next_of_cons hin] at h
    cases h
    rfl

/-- Settles O10: no step and no operation changes the ROM field (`step_keeps_rom`, `exec_keeps_rom`), and issuing an
input touches the queue alone. -/
theorem nothingWritesTheTable : Obligations.NothingWritesTheTable := by
  refine ⟨fun s t h => ?step, fun i s t h => exec_keeps_rom h, State.issue_rom⟩
  case step =>
    have hrom : t.rom = s.rom := step_keeps_rom h
    exact ⟨hrom, fun a => by rw [hrom]⟩

end Sys2Proof.Machine
end

section
/-! PROOFS. R100 (40_shiftcipher.md): the shift cipher works character by character. First what the two operations
answer, then that text as a map. -/

namespace Sys2Proof.Machine

/-- SHIFTENC delivers the encrypted text and changes nothing else (R106). -/
theorem exec_shiftenc (txt : Text) (key : Int) (s : State) :
    exec (.shiftenc txt key) s = .next (s.answer (.ok (.text (shiftText .encrypt txt key)))) :=
  exec_eq_answer (.shiftenc txt key) s

/-- SHIFTDEC delivers the decrypted text and changes nothing else (R107). -/
theorem exec_shiftdec (txt : Text) (key : Int) (s : State) :
    exec (.shiftdec txt key) s = .next (s.answer (.ok (.text (shiftText .decrypt txt key)))) :=
  exec_eq_answer (.shiftdec txt key) s

/-- `shiftChar` as a function of the whole key, for one direction: the character's image does not see its position
or its neighbours (R100, R102). -/
def shiftCharByKey (dir : Direction) (key : Int) (c : Nat) : Nat := shiftChar c (effectiveKey key) dir

theorem shiftText_eq_map (dir : Direction) (txt : Text) (key : Int) :
    shiftText dir txt key = txt.map (shiftCharByKey dir key) := rfl

/-- Settles O28: the two functions are `shiftCharByKey` of the two directions, by which `shiftText` maps the text
(`shiftText_eq_map`). -/
theorem shiftWorksCharacterByCharacter : Obligations.ShiftWorksCharacterByCharacter := by
  refine ⟨shiftCharByKey .encrypt, shiftCharByKey .decrypt, fun txt key s => ⟨?enc, ?dec⟩⟩
  case enc => rw [exec_shiftenc, shiftText_eq_map, State.answer]
  case dec => rw [exec_shiftdec, shiftText_eq_map, State.answer]

end Sys2Proof.Machine
end

section
/-! PROOFS. R140 (42_subbytes.md): SUBBYTES, position by position. First what the operation answers, then its Bytes. -/

namespace Sys2Proof.Machine

/-- SUBBYTES delivers the substituted BlockState and changes nothing else (R140, R141). -/
theorem exec_subbytes (st : BlockState) (s : State) :
    exec (.subbytes st) s = .next (s.answer (.ok (.block (subBytes s.rom st)))) :=
  exec_eq_answer (.subbytes st) s

/-- Settles O41: the BlockState delivered is `subBytes` of the operand (`exec_subbytes`), whose Byte at each position
is the ROM's entry for the operand's Byte there (`getElem_subBytes`). -/
theorem subbytesAnswersTheTableEntries : Obligations.SubbytesAnswersTheTableEntries := by
  refine fun st s => ⟨subBytes s.rom st, ?response, ?bytes⟩
  case response => exact exec_subbytes st s
  case bytes => exact fun i => getElem_subBytes s.rom st i i.isLt

end Sys2Proof.Machine
end

section
/-! PROOFS. R161 to R164 (43_shiftrows.md): SHIFTROWS rotates row `r` left by `r`. Columns are taken in `Fin 4`, where
addition is the rules' addition modulo 4; every law is then an equation between columns. -/

namespace Sys2Proof.Machine

/-- Two BlockStates that agree row by row and column by column are equal (R47). -/
theorem blockState_ext_idx {st st' : BlockState} (h : ∀ r c : Fin 4, st[idx r c] = st'[idx r c]) : st = st' := by
  apply blockState_ext
  intro i
  simpa only [idx_rowOf_colOf] using h (rowOf i) (colOf i)

/-- SHIFTROWS delivers the shifted BlockState and changes nothing else (R162). -/
theorem exec_shiftrows (st : BlockState) (s : State) :
    exec (.shiftrows st) s = .next (s.answer (.ok (.block (shiftRows st)))) :=
  exec_eq_answer (.shiftrows st) s

/-- R161 on lane numbers: row `r`, column `c` comes from row `r`, column `c + r` modulo 4. -/
theorem shiftRowsSource_idx (r c : Fin 4) : shiftRowsSource (idx r c) = idx r (c + r) := by
  simp [shiftRowsSource, Fin.add_def]

/-- R161 on Bytes. -/
theorem getElem_shiftRows_idx (st : BlockState) (r c : Fin 4) : (shiftRows st)[idx r c] = st[idx r (c + r)] := by
  calc (shiftRows st)[idx r c]
    _ = st[shiftRowsSource (idx r c)] := getElem_shiftRows st (idx r c) (idx r c).isLt
    _ = st[idx r (c + r)] := by simp only [shiftRowsSource_idx]

/-- Settles O45: the BlockState delivered is `shiftRows` of the operand (`exec_shiftrows`), and the column
`(c + r) mod 4` is the sum `c + r` of `getElem_shiftRows_idx`. -/
theorem shiftrowsAnswersTheRotatedRows : Obligations.ShiftrowsAnswersTheRotatedRows := by
  refine fun st s => ⟨shiftRows st, exec_shiftrows st s, fun r c c' hc => ?bytes⟩
  case bytes =>
    have hcol : c' = c + r := Fin.ext hc
    rw [hcol, getElem_shiftRows_idx]

/-- R163: row `i mod 4`, column `(i div 4 + i mod 4) mod 4` is lane `5 i mod 16`. -/
theorem shiftRowsSource_val (i : Fin 16) : (shiftRowsSource i).val = (5 * i.val) % 16 := by
  simp only [shiftRowsSource, idx, rowOf, colOf]
  omega

/-- R164 (a): after four applications row `r` is rotated by `4 r`, a multiple of 4. -/
theorem shiftRows_four (st : BlockState) : shiftRows (shiftRows (shiftRows (shiftRows st))) = st := by
  apply blockState_ext_idx
  intro r c
  have hcol : c + r + r + r + r = c := by omega
  simp only [getElem_shiftRows_idx, hcol]

/-- R164 (a): three further applications undo one, on either side. -/
theorem shiftRows_bijective : Function.Bijective shiftRows :=
  Function.bijective_iff_has_inverse.mpr
    ⟨fun st => shiftRows (shiftRows (shiftRows st)), shiftRows_four, shiftRows_four⟩

/-- The BlockState of the example of R162: lane `i` holds `i`. -/
def laneNumbers : BlockState := Vector.ofFn fun i : Fin 16 => BitVec.ofNat 8 i.val

/-- R164 (b): twice rotates row 1 by 2, and so puts lane 9 in the place of lane 1. -/
theorem shiftRows_two_laneNumbers_ne : shiftRows (shiftRows laneNumbers) ≠ laneNumbers := by
  intro h
  have hlane : (shiftRows (shiftRows laneNumbers))[idx 1 0] = laneNumbers[idx 1 0] := by rw [h]
  rw [getElem_shiftRows_idx, getElem_shiftRows_idx] at hlane
  exact absurd hlane (by decide)

/-- R164 (c): the column `c - r` of the result holds the operand's column `c`. -/
theorem getElem_shiftRows_idx_sub (st : BlockState) (r c : Fin 4) : (shiftRows st)[idx r (c - r)] = st[idx r c] := by
  simp only [getElem_shiftRows_idx, sub_add_cancel]

/-- Settles O46: assembled from the laws above; the column `(c + 4 - r) mod 4` is the difference `c - r`. -/
theorem shiftrowsLaws : Obligations.ShiftrowsLaws := by
  refine ⟨exec_shiftrows, shiftRowsSource_val, shiftRows_bijective, shiftRows_four,
    ⟨laneNumbers, shiftRows_two_laneNumbers_ne⟩, fun st r c c' hc => ?inverse⟩
  case inverse =>
    have hcol : c' = c - r := by omega
    rw [hcol, getElem_shiftRows_idx_sub]

end Sys2Proof.Machine
end

section
/-! PROOFS. R192 (45_keyschedule.md): RotWord, on Bytes, on the bus, and as the row shift of row 1. -/

namespace Sys2Proof.Machine

/-- RotWord takes the Byte one offset up, modulo 4 (R192). -/
theorem getElem_rotWord (w : Word) (c : Fin 4) : (rotWord w)[c] = w[c + 1] := by
  match c with
  | 0 | 1 | 2 | 3 => rfl

/-- Rotating a bus left by its first byte moves that byte behind the other three: bit `i` below 8 is one of the first
byte's, a bit from 8 up is bit `i - 8` of the rest. -/
theorem rotateLeft_byte_append (x : BitVec 8) (y : BitVec 24) : (x ++ y).rotateLeft 8 = y ++ x := by
  apply BitVec.eq_of_getLsbD_eq
  intro i hi
  rw [BitVec.getLsbD_rotateLeft, BitVec.getLsbD_append, BitVec.getLsbD_append, BitVec.getLsbD_append]
  by_cases hbyte : i < 8
  · simp [hbyte]
  · have hrest : i - 8 < 24 := by omega
    simp [hbyte, hrest, hi]

/-- RotWord on the bus is a rotate left by one byte (R192, R45). -/
theorem packWord_rotWord (w : Word) : packWord (rotWord w) = (packWord w).rotateLeft 8 := by
  have hpack : packWord w = w[0] ++ (w[1] ++ w[2] ++ w[3]) := by
    simp only [packWord, BitVec.append_assoc, BitVec.cast_eq]
  rw [hpack, rotateLeft_byte_append]
  rfl

/-- Row 1 of a BlockState as a Word: the Byte at offset `c` is that of column `c`. -/
theorem getElem_rowOne (st : BlockState) (c : Fin 4) :
    (#v[st[idx 1 0], st[idx 1 1], st[idx 1 2], st[idx 1 3]] : Word)[c] = st[idx 1 c] := by
  match c with
  | 0 | 1 | 2 | 3 => rfl

/-- Settles O56: RotWord's definition, `packWord_rotWord`, the example by evaluation, and the row shift of row 1 by
`getElem_shiftRows_idx`. -/
theorem rotwordRotatesByOneByte : Obligations.RotwordRotatesByOneByte := by
  refine ⟨fun w => rfl, packWord_rotWord, by decide, fun st c => ?rowOne⟩
  case rowOne => rw [getElem_shiftRows_idx, getElem_rotWord, getElem_rowOne]

end Sys2Proof.Machine
end

section
/-! PROOFS. R171 to R178 (44_mixcolumns.md): MIXCOLS as a matrix product over the field. The field product is linear in
its first factor and commutes with doubling there, so its values at 1, 2 and 3 follow from its value at 1. -/

namespace Sys2Proof.Machine

/-- The polynomial XORed in by a doubling whose bit 7 before the shift is `high` (R172). -/
def reduction (high : Bool) : Byte := if high then 0x1B#8 else 0#8

theorem reduction_xor (h h' : Bool) : reduction (h ^^ h') = reduction h ^^^ reduction h' := by
  revert h h'; decide

/-- Doubling is a shift and a reduction (R172). -/
theorem xtime_eq_shift_xor_reduction (b : Byte) : xtime b = b <<< 1 ^^^ reduction (b.getLsbD 7) := by
  unfold xtime
  cases b.getLsbD 7
  case false => simp [reduction]
  case true => rfl

/-- Doubling is linear: the bit tested, the shift and the reduction all are (R171, R172). -/
theorem xtime_xor (a b : Byte) : xtime (a ^^^ b) = xtime a ^^^ xtime b := by
  simp only [xtime_eq_shift_xor_reduction, BitVec.getLsbD_xor, BitVec.shiftLeft_xor_distrib, reduction_xor]
  ac_rfl

@[simp] theorem xtime_zero : xtime 0#8 = 0#8 := rfl

/-- Shift-and-add is linear in the factor that is doubled. -/
theorem gmulBits_xor_left (n : Nat) (a a' b : Byte) :
    gmulBits n (a ^^^ a') b = gmulBits n a b ^^^ gmulBits n a' b := by
  induction n generalizing a a' b with
  | zero => simp [gmulBits]
  | succ n ih =>
    simp only [gmulBits, gfAdd, xtime_xor, ih]
    split
    · ac_rfl
    · simp

/-- Doubling the factor that is doubled at each bit doubles the product. -/
theorem gmulBits_xtime_left (n : Nat) (a b : Byte) : gmulBits n (xtime a) b = xtime (gmulBits n a b) := by
  induction n generalizing a b with
  | zero => simp [gmulBits]
  | succ n ih =>
    simp only [gmulBits, gfAdd, xtime_xor, ih]
    split
    · rfl
    · rw [xtime_zero]

/-- 1 is the neutral factor, checked on each of the 256 Bytes. -/
theorem gmul_one_left (b : Byte) : gmul 1#8 b = b := by
  revert b; decide

/-- The field product by 2 is the doubling of R172. -/
theorem gmul_two_left (b : Byte) : gmul 2#8 b = mul2 b := by
  calc gmul 2#8 b
    _ = gmulBits 8 (xtime 1#8) b := rfl
    _ = xtime (gmul 1#8 b) := gmulBits_xtime_left 8 1#8 b
    _ = mul2 b := by rw [gmul_one_left, mul2]

/-- The field product by 3 = 2 + 1 is the multiplier of R173, by distributivity. -/
theorem gmul_three_left (b : Byte) : gmul 3#8 b = mul3 b := by
  calc gmul 3#8 b
    _ = gmulBits 8 (2#8 ^^^ 1#8) b := rfl
    _ = gmul 2#8 b ^^^ gmul 1#8 b := gmulBits_xor_left 8 2#8 1#8 b
    _ = mul3 b := by rw [gmul_two_left, gmul_one_left]; rfl

/-- MIXCOLS delivers the mixed BlockState and changes nothing else (R176). -/
theorem exec_mixcols (st : BlockState) (s : State) :
    exec (.mixcols st) s = .next (s.answer (.ok (.block (mixColumns st)))) :=
  exec_eq_answer (.mixcols st) s

/-- Column `c` of the result comes from column `c` of the operand only (R178). -/
theorem getElem_mixColumns_idx (st : BlockState) (i c : Fin 4) :
    (mixColumns st)[idx i c] = (mixColumn (column st c))[i] := by
  calc (mixColumns st)[idx i c]
    _ = (mixColumn (column st (colOf (idx i c))))[rowOf (idx i c)] := getElem_mixColumns st (idx i c) (idx i c).isLt
    _ = (mixColumn (column st c))[i] := by simp only [colOf_idx, rowOf_idx]

/-- Each row is the row above rotated right by one place (R175): the entry depends on `j - i` only. -/
theorem mixCoefficient_add_one (i j : Fin 4) : mixCoefficient (i + 1) (j + 1) = mixCoefficient i j := by
  simp only [mixCoefficient, add_sub_add_right_eq_sub]

/-- The matrix has 2 on the diagonal, 3 one place to the right of it, and 1 elsewhere (R175). -/
theorem mixCoefficient_eq (i j : Fin 4) :
    mixCoefficient i j = if j = i then 2 else if j = i + 1 then 3 else 1 := by
  revert i j; decide

/-- Row `i` of the mixed column is the field product of row `i` of the matrix with the column (R175, R177). -/
theorem getElem_mixColumn (v : Word) (i : Fin 4) : (mixColumn v)[i] =
    gmul (BitVec.ofNat 8 (mixCoefficient i 0)) v[0] ^^^ gmul (BitVec.ofNat 8 (mixCoefficient i 1)) v[1] ^^^
    gmul (BitVec.ofNat 8 (mixCoefficient i 2)) v[2] ^^^ gmul (BitVec.ofNat 8 (mixCoefficient i 3)) v[3] := by
  match i with
  | 0 | 1 | 2 | 3 => simp [mixColumn, mixCoefficient_eq, gmul_one_left, gmul_two_left, gmul_three_left]

/-- Settles O48: the rows by evaluation, their rotation by `mixCoefficient_add_one`, and each column of the BlockState
delivered (`exec_mixcols`) by `getElem_mixColumns_idx` and `getElem_mixColumn`. -/
theorem mixcolsIsTheMatrixProduct : Obligations.MixcolsIsTheMatrixProduct := by
  refine ⟨by decide, mixCoefficient_add_one, fun st s => ⟨mixColumns st, exec_mixcols st s, fun i c => ?product⟩⟩
  case product =>
    rw [getElem_mixColumns_idx, getElem_mixColumn]
    simp only [getElem_column]
    rfl

end Sys2Proof.Machine
end

section
/-! PROOFS. R210 to R212 (46_format.md): FMTBYTE. A digit's code is `hexDigit` of a nibble, `hexVal` gives the nibble
back, and the two nibbles of a Byte are its quotient and remainder by 16. -/

namespace Sys2Proof.Machine

/-- FMTBYTE delivers the two digits and changes nothing else (R211). -/
theorem exec_fmtbyte (b : Byte) (s : State) :
    exec (.fmtbyte b) s = .next (s.answer (.ok (.text (formatByte b)))) :=
  exec_eq_answer (.fmtbyte b) s

/-- The digits are the upper-case ones (R211; codes D5). -/
theorem hexDigit_range {v : Nat} (h : v < 16) :
    (0x30 ≤ hexDigit v ∧ hexDigit v ≤ 0x39) ∨ (0x41 ≤ hexDigit v ∧ hexDigit v ≤ 0x46) := by
  unfold hexDigit
  split
  · left; omega
  · right; omega

/-- A nibble's digit has the nibble's value: formatting, then R121's valuation (R212 b). -/
theorem hexVal_hexDigit {v : Nat} (h : v < 16) : hexVal (hexDigit v) = v := by
  simp only [hexVal, hexDigit, isDecDigit_iff, isUpperHex_iff]
  split_ifs <;> omega

/-- R211 on numbers: the quotient and the remainder by 16, the high nibble first (D20). -/
theorem formatByte_eq (b : Byte) : formatByte b = [hexDigit (b.toNat / 16), hexDigit (b.toNat % 16)] := by
  have hhigh : (b.extractLsb 7 4).toNat = b.toNat / 16 := by
    rw [BitVec.extractLsb_toNat, Nat.shiftRight_eq_div_pow]
    omega
  have hlow : (b.extractLsb 3 0).toNat = b.toNat % 16 := by
    rw [BitVec.extractLsb_toNat, Nat.shiftRight_zero]
  rw [formatByte, hhigh, hlow]

/-- Settles O58: the two characters are the digits of the quotient and the remainder by 16 (`formatByte_eq`), both
below 16. -/
theorem fmtbyteAnswersTwoUpperCaseDigits : Obligations.FmtbyteAnswersTwoUpperCaseDigits := by
  intro b s
  have hhigh : b.toNat / 16 < 16 := by omega
  have hlow : b.toNat % 16 < 16 := by omega
  refine ⟨hexDigit (b.toNat / 16), hexDigit (b.toNat % 16), ?response, ?codes,
    hexVal_hexDigit hhigh, hexVal_hexDigit hlow, ?value⟩
  case response => rw [exec_fmtbyte, formatByte_eq, State.answer]
  case codes => simpa using ⟨hexDigit_range hhigh, hexDigit_range hlow⟩
  case value => rw [hexVal_hexDigit hhigh, hexVal_hexDigit hlow, Nat.div_add_mod]

end Sys2Proof.Machine
end

section
/-! PROOFS. R128 (c), R212 (b): formatting undoes parsing, up to the case of the digits. First one digit, one pair, a
whole text; then the run that serves a queue of FMTBYTE commands. -/

namespace Sys2Proof.Machine

/-- The digit of a hexadecimal character's value is the character in upper case, in each of R121's three ranges. -/
theorem hexDigit_hexVal {c : Nat} (h : isHex c = true) : hexDigit (hexVal c) = upperDigit c := by
  rw [isHex_iff] at h
  simp only [hexVal, hexDigit, upperDigit, isDecDigit_iff, isUpperHex_iff]
  split_ifs <;> omega

/-- Formatting the Byte of a digit pair gives the pair in upper case (R212 b). -/
theorem formatByte_pairByte {h l : Nat} (hh : isHex h = true) (hl : isHex l = true) :
    formatByte (pairByte h l) = [upperDigit h, upperDigit l] := by
  have hlt := hexVal_lt hl
  have hquot : (16 * hexVal h + hexVal l) / 16 = hexVal h := by omega
  have hrem : (16 * hexVal h + hexVal l) % 16 = hexVal l := by omega
  rw [formatByte_eq, toNat_pairByte hh hl, hquot, hrem, hexDigit_hexVal hh, hexDigit_hexVal hl]

/-- The first pair makes the first Byte, the rest of the text the others (R122). -/
theorem toList_hexBytes_succ (n h l : Nat) (rest : Text) :
    (hexBytes (n + 1) (h :: l :: rest)).toList = pairByte h l :: (hexBytes n rest).toList := by
  simp only [hexBytes, Vector.toList_ofFn, List.ofFn_succ]
  rfl

/-- Formatting the Bytes of a text of hexadecimal digits, pair by pair, gives the text in upper case. -/
theorem flatMap_formatByte_hexBytes (n : Nat) (txt : Text) (hlen : txt.length = 2 * n)
    (hhex : ∀ c ∈ txt, isHex c = true) : (hexBytes n txt).toList.flatMap formatByte = txt.map upperDigit := by
  induction n generalizing txt with
  | zero =>
    have hnil : txt = [] := List.length_eq_zero_iff.mp hlen
    subst hnil
    rfl
  | succ n ih =>
    match txt, hlen with
    | h :: l :: rest, hlen =>
      simp only [List.forall_mem_cons] at hhex
      obtain ⟨hh, hl, hrest⟩ := hhex
      have hlenRest : rest.length = 2 * n := by simp only [List.length_cons] at hlen; omega
      rw [toList_hexBytes_succ, List.flatMap_cons, formatByte_pairByte hh hl, ih rest hlenRest hrest]
      rfl

/-- PARSEHEX of 32 digits delivers their Bytes (R123). -/
theorem exec_parsehex_of_digits {txt : Text} (hlen : txt.length = 32) (hhex : ∀ c ∈ txt, isHex c = true)
    (s : State) : exec (.parsehex txt) s = .next (s.answer (.ok (.block (hexBytes 16 txt)))) := by
  rw [exec_eq_answer]
  simp [respond, (parseFails_eq_false_iff 32 txt).mpr ⟨hlen, hhex⟩]

/-- PARSEWORD of 8 digits delivers their Bytes (R126). -/
theorem exec_parseword_of_digits {txt : Text} (hlen : txt.length = 8) (hhex : ∀ c ∈ txt, isHex c = true)
    (s : State) : exec (.parseword txt) s = .next (s.answer (.ok (.word (hexBytes 4 txt)))) := by
  rw [exec_eq_answer]
  simp [respond, (parseFails_eq_false_iff 8 txt).mpr ⟨hlen, hhex⟩]

/-- The response to FMTBYTE (R211). -/
def formatted (b : Byte) : Response := .ok (.text (formatByte b))

/-- The request of FMTBYTE is answered with the formatted Byte, on ports of any widths. -/
theorem respondInput_encode_fmtbyte (p : Config.Widths) (rom : Memory) (b : Byte) :
    respondInput p rom (.command (encode p (.fmtbyte b))) = some (formatted b) := by
  simp only [respondInput, Laws.EncodeSelects.fmtbyte b p]
  rfl

/-- A host joins formatted Bytes to the concatenation of their digits (R73, R210). -/
theorem joinedTexts_map_formatted (bs : List Byte) : joinedTexts (bs.map formatted) = bs.flatMap formatByte := by
  simp only [joinedTexts, List.flatMap_map, formatted]

/-- Serving a queue of FMTBYTE commands to its end delivers the formatted Bytes in order. -/
theorem runSteps_fmtbytes {s : State} (bs : List Byte)
    (hin : s.inputs = bs.map fun b => .command (encode s.widths (.fmtbyte b))) :
    runSteps bs.length s = .next { s with inputs := [], responses := s.responses ++ bs.map formatted } := by
  induction bs generalizing s with
  | nil =>
    rcases s with ⟨widths, rom, inputs, responses⟩
    cases hin
    simp [runSteps]
  | cons b bs ih =>
    rw [List.length_cons, runSteps,
      step_eq_next_of_respondInput hin (respondInput_encode_fmtbyte s.widths s.rom b)]
    simp [ih]

/-- Formatting the Bytes of a text of `2n` digits and joining the answers gives the text in upper case: the run of
O39, for any number of Bytes. -/
theorem runSteps_format_hexBytes {n : Nat} {txt : Text} (hlen : txt.length = 2 * n)
    (hhex : ∀ c ∈ txt, isHex c = true) (s : State) :
    ∃ (t : State) (new : List Response),
      runSteps n { s with
        inputs := (hexBytes n txt).toList.map fun b => .command (encode s.widths (.fmtbyte b)) } = .next t ∧
      t.responses = s.responses ++ new ∧ joinedTexts new = txt.map upperDigit := by
  have hrun := runSteps_fmtbytes (s := { s with
    inputs := (hexBytes n txt).toList.map fun b => .command (encode s.widths (.fmtbyte b)) }) _ rfl
  rw [Vector.length_toList] at hrun
  refine ⟨_, (hexBytes n txt).toList.map formatted, hrun, rfl, ?joined⟩
  case joined => rw [joinedTexts_map_formatted, flatMap_formatByte_hexBytes n txt hlen hhex]

/-- Settles O39: the parser delivers `hexBytes`, whose Bytes format back to the text (`runSteps_format_hexBytes`). -/
theorem formattingAParsedStringGivesItBack : Obligations.FormattingAParsedStringGivesItBack := by
  refine ⟨fun h s hlen hhex => ?block, fun h s hlen hhex => ?word⟩
  case block =>
    obtain ⟨t, new, hrun⟩ := runSteps_format_hexBytes (n := 16) hlen hhex s
    exact ⟨hexBytes 16 h, t, new, exec_parsehex_of_digits hlen hhex s, hrun⟩
  case word =>
    obtain ⟨t, new, hrun⟩ := runSteps_format_hexBytes (n := 4) hlen hhex s
    exact ⟨hexBytes 4 h, t, new, exec_parseword_of_digits hlen hhex s, hrun⟩

end Sys2Proof.Machine
end

section
/-! PROOFS. R73 (b) (30_encoding.md): FMTSTATE and FMTWORD. A line that issues FMTBYTE whatever is bound, a program of
such lines, and the join of its answers; the two pseudo-operations differ only in the lines. -/

namespace Sys2Proof.Machine

/-- A line issues FMTBYTE on a fixed Byte, on ports of any widths and whatever is bound. -/
def HostLine.issuesFmtbyte (l : HostLine) (b : Byte) : Prop :=
  ∀ (p : Config.Widths) (env : HostEnv), l.command p env = some (.fmtbyte b)

/-- A command issued when nothing else is: the next step answers it and nothing else changes. -/
theorem step_issue_of_idle {s : State} {x : HostInput} {resp : Response} (hidle : s.inputs = [])
    (hresp : respondInput s.widths s.rom x = some resp) : step (s.issue x) = .next (s.answer resp) := by
  have hin : (s.issue x).inputs = [x] := by simp [hidle]
  rw [step_eq_next_of_respondInput hin hresp]
  simp [State.answer, State.issue, hidle]

/-- A line that issues FMTBYTE is answered, binds the digits, and the program goes on. -/
theorem runProgram_cons_fmtbyte {l : HostLine} {b : Byte} (hl : l.issuesFmtbyte b) {s : State} (hidle : s.inputs = [])
    (ls : List HostLine) (env : HostEnv) :
    runProgram (l :: ls) env s =
      runProgram ls ((l.target, .text (formatByte b)) :: env) (s.answer (formatted b)) := by
  have hcmd : l.command s.widths env = some (.fmtbyte b) := hl s.widths env
  have hstep := step_issue_of_idle hidle (respondInput_encode_fmtbyte s.widths s.rom b)
  simp only [runProgram, hcmd, hstep, State.answer_responses, List.getLast?_concat]
  rfl

/-- A program of lines that issue FMTBYTE delivers the formatted Bytes in order and changes nothing else. -/
theorem runProgram_fmtbytes {ls : List HostLine} {bs : List Byte} (hls : List.Forall₂ HostLine.issuesFmtbyte ls bs)
    (env : HostEnv) {s : State} (hidle : s.inputs = []) :
    (runProgram ls env s).2 = { s with responses := s.responses ++ bs.map formatted } := by
  induction hls generalizing env s with
  | nil => simp [runProgram]
  | cons hl _ ih =>
    rw [runProgram_cons_fmtbyte hl hidle, ih _ (s := s.answer _) hidle]
    simp [State.answer]

/-- A pseudo-operation whose lines issue FMTBYTE binds the joined digits and delivers the single ones: every line is
answered, so as many responses are new as there are lines. -/
theorem runFormat_eq {lines : HostArg → List HostLine} {v : HostValue} {bs : List Byte}
    (hlines : List.Forall₂ HostLine.issuesFmtbyte (lines (.lit v)) bs) (target : Nat) {a : HostArg} {env : HostEnv}
    {s : State} (hidle : s.inputs = []) (ha : a.eval env = some v) :
    runFormat lines target a env s =
      ((target, .text (bs.flatMap formatByte)) :: env,
       { s with responses := s.responses ++ bs.map formatted }) := by
  simp only [runFormat, ha, runProgram_fmtbytes hlines [] hidle, List.drop_left, List.length_map, hlines.length_eq,
    if_true, joinedTexts_map_formatted]

/-- The line `FMTBYTE v[i]` of a literal issues FMTBYTE on the Byte that `v[i]` is. -/
theorem issuesFmtbyte_byteOf_lit (target i : Nat) {v : HostValue} {b : Byte}
    (hb : ∀ env : HostEnv, (HostArg.byteOf (.lit v) i).eval env = some (.byte b)) :
    HostLine.issuesFmtbyte ⟨target, .fmtbyte, [.byteOf (.lit v) i]⟩ b := by
  intro p env
  simp [HostLine.command, hb, buildCommand, Option.filter, Instr.wf]

/-- The lines `FMTBYTE v[0]`, `FMTBYTE v[1]` and so on of a literal issue FMTBYTE on its Bytes in index order. -/
theorem forall₂_issuesFmtbyte_lines {n : Nat} (target : Nat) {v : HostValue} {bytes : Vector Byte n}
    (hv : ∀ (i : Nat) (hi : i < n) (env : HostEnv), (HostArg.byteOf (.lit v) i).eval env = some (.byte bytes[i])) :
    List.Forall₂ HostLine.issuesFmtbyte
      ((List.range n).map fun i => ⟨target + i, .fmtbyte, [.byteOf (.lit v) i]⟩) bytes.toList := by
  refine List.forall₂_iff_get.mpr ⟨by simp, fun i _ hi => ?line⟩
  case line =>
    have hi : i < n := by simpa using hi
    simpa using issuesFmtbyte_byteOf_lit (target + i) i (hv i hi)

theorem forall₂_fmtStateLines (target : Nat) (st : BlockState) :
    List.Forall₂ HostLine.issuesFmtbyte (fmtStateLines target (.lit (.block st))) st.toList :=
  forall₂_issuesFmtbyte_lines target fun i hi env => by simp [HostArg.eval, hi]

theorem forall₂_fmtWordLines (target : Nat) (w : Word) :
    List.Forall₂ HostLine.issuesFmtbyte (fmtWordLines target (.lit (.word w))) w.toList :=
  forall₂_issuesFmtbyte_lines target fun i hi env => by simp [HostArg.eval, hi]

/-- Settles O53: both are `runFormat_eq`, on the lines of FMTSTATE and of FMTWORD. -/
theorem formattingBindsTheJoinedText : Obligations.FormattingBindsTheJoinedText := by
  refine ⟨fun st target a env s hidle ha => ?state, fun w target a env s hidle ha => ?word⟩
  case state => exact runFormat_eq (forall₂_fmtStateLines 0 st) target hidle ha
  case word => exact runFormat_eq (forall₂_fmtWordLines 0 w) target hidle ha

end Sys2Proof.Machine
end

section
/-! PROOFS. The invariant (10_state.md, 60_exceptions.md R221, R224, R256). What the ports carry decodes to an
instruction that fits them; the response to such an instruction fits the ports and is legal; so a step keeps `Inv`. -/

namespace Sys2Proof

open Config Machine

/-- A text fits when each code and the length do (R63, R256). -/
theorem textWf_iff (p : Widths) (t : Text) :
    textWf p t = true ↔ (∀ c ∈ t, c < 2 ^ p.charW) ∧ t.length < 2 ^ p.lenW := by
  simp [textWf, charsFit, lengthFits]

/-- A short text of ASCII codes fits the ports of every legal width. -/
theorem textWf_of_ascii {p : Widths} (hp : p.wf = true) {t : Text} (hcodes : ∀ c ∈ t, c < 128)
    (hlen : t.length < 64) : textWf p t = true :=
  (textWf_iff p t).mpr
    ⟨fun c hc => (hcodes c hc).trans_le (le_two_pow_charW hp), hlen.trans_le (le_two_pow_lenW hp)⟩

/-- The text operand of a request the ports can carry fits a text port (R64). -/
theorem textWf_text {p : Widths} {r : Request} (h : textWf p r.txt = true) : textWf p (r.text p) = true := by
  have hlen : (r.text p).length < 2 ^ p.lenW := by
    rw [length_text]
    exact ((textWf_iff p r.txt).mp h).2
  simp only [textWf, charsFit_text, lengthFits, hlen, decide_true, Bool.and_self]

/-- The key operand is in the range of KEY_W signed bits (R64). -/
theorem keyWf_keyInt (p : Widths) (r : Request) : keyWf p (r.keyInt p) = true :=
  Bool.and_eq_true_iff.mpr ⟨decide_eq_true (BitVec.le_toInt _), decide_eq_true BitVec.toInt_lt⟩

/-- What the ports can carry decodes to an instruction that they can express (R63, R256). -/
theorem wf_of_decode {p : Widths} {r : Request} {i : Instr} (hr : r.expressible p = true)
    (h : decode p r = .ok i) : i.wf p = true := by
  obtain ⟨row, -, rfl⟩ := (decode_eq_ok_iff p r i).mp h
  have htext : textWf p (r.text p) = true := textWf_text (Bool.and_eq_true_iff.mp hr).1
  cases row.operation <;> simp [assemble, Instr.wf, htext, keyWf_keyInt]

end Sys2Proof

namespace Sys2Proof.Machine

open Config

/-- A shifted character is the character itself or an ASCII letter (R105). -/
theorem shiftChar_eq_or_lt (c k : Nat) (dir : Direction) : shiftChar c k dir = c ∨ shiftChar c k dir < 128 := by
  have hupper := fmod_lt (((c : Int) - 0x41) + dir.sign * k)
  have hlower := fmod_lt (((c : Int) - 0x61) + dir.sign * k)
  unfold shiftChar
  split
  · right; omega
  · split
    · right; omega
    · left; rfl

/-- A shifted text fits the ports its operand fits (R105, R256). -/
theorem textWf_shiftText {p : Widths} (hp : p.wf = true) {txt : Text} (h : textWf p txt = true) (dir : Direction)
    (key : Int) : textWf p (shiftText dir txt key) = true := by
  obtain ⟨hcodes, hlen⟩ := (textWf_iff p txt).mp h
  refine (textWf_iff p _).mpr ⟨fun d hd => ?code, by rwa [length_shiftText]⟩
  case code =>
    obtain ⟨c, hc, rfl⟩ := List.mem_map.mp hd
    rcases shiftChar_eq_or_lt c (effectiveKey key) dir with heq | hlt
    · rw [heq]; exact hcodes c hc
    · exact hlt.trans_le (le_two_pow_charW hp)

/-- The two digits of FMTBYTE fit the ports of every legal width (R211). -/
theorem textWf_formatByte {p : Widths} (hp : p.wf = true) (b : Byte) : textWf p (formatByte b) = true := by
  have hhigh := hexDigit_range (v := b.toNat / 16) (by omega)
  have hlow := hexDigit_range (v := b.toNat % 16) (by omega)
  rw [formatByte_eq]
  refine textWf_of_ascii hp (List.forall_mem_cons.mpr ⟨by omega, List.forall_mem_singleton.mpr (by omega)⟩) ?length
  case length => exact (by decide : 2 < 64)

/-- The error of a parser that fails is legal: it asks for 32 or 8 digits and its flags are those of R124. -/
theorem legal_invalidInput {p : Widths} {n : Nat} {txt : Text} (hn : n = 32 ∨ n = 8) (h : textWf p txt = true)
    (hfails : parseFails n txt = true) :
    (Response.invalidInput n txt.length (errLen n txt) (errChar txt)).legal p = true := by
  have hlen : txt.length < 2 ^ p.lenW := ((textWf_iff p txt).mp h).2
  have hexact : (errLen n txt == (txt.length != n)) = true := beq_self_eq_true _
  have hflags : (errLen n txt || errChar txt) = true := hfails
  simp only [Response.legal, hexact, hflags, hlen, decide_true, Bool.and_true]
  simpa using hn

/-- The response to an instruction that the ports can express is legal (R105, R221, R224, R256). -/
theorem legal_respond {p : Widths} (hp : p.wf = true) (rom : Memory) {i : Instr} (hi : i.wf p = true) :
    (respond rom i).legal p = true := by
  cases i with
  | shiftenc txt key | shiftdec txt key =>
    obtain ⟨htext, -⟩ := Bool.and_eq_true_iff.mp hi
    exact textWf_shiftText hp htext _ key
  | parsehex txt =>
    simp only [respond]
    split
    · exact legal_invalidInput (.inl rfl) hi ‹_›
    · rfl
  | parseword txt =>
    simp only [respond]
    split
    · exact legal_invalidInput (.inr rfl) hi ‹_›
    · rfl
  | fmtbyte b => exact textWf_formatByte hp b
  | subbytes st | shiftrows st | mixcols st | nextword prev four rcon => rfl

/-- Whatever the host makes that the ports can carry, the response is legal. -/
theorem legal_of_respondInput {p : Widths} (hp : p.wf = true) {rom : Memory} {x : HostInput} {resp : Response}
    (hx : x.expressible p = true) (hresp : respondInput p rom x = some resp) : resp.legal p = true := by
  cases x with
  | reset | commandCutByReset r => cases hresp
  | command r =>
    simp only [respondInput] at hresp
    cases hdec : decode p r with
    | error e => rw [hdec] at hresp; cases hresp; rfl
    | ok i => rw [hdec] at hresp; cases hresp; exact legal_respond hp rom (wf_of_decode hx hdec)

/-- Serving the oldest input keeps the invariant. -/
theorem State.Inv.serve_oldest {s : State} (hs : s.Inv) {x : HostInput} {rest : List HostInput}
    (hin : s.inputs = x :: rest) :
    State.Inv { s with
      inputs := rest, responses := s.responses ++ (respondInput s.widths s.rom x).toList } := by
  have hinputs := hs.inputsExpressible
  rw [hin] at hinputs
  obtain ⟨hx, hrest⟩ := List.forall_mem_cons.mp hinputs
  refine ⟨hs.widthsWf, hs.romWf, hs.romBijective, hrest, fun resp hresp => ?legal⟩
  case legal =>
    rcases List.mem_append.mp hresp with hold | hnew
    · exact hs.responsesLegal resp hold
    · exact legal_of_respondInput hs.widthsWf hx (Option.mem_toList.mp hnew)

/-- Settles O3: a step is idle or serves the oldest input, which `State.Inv.serve_oldest` covers. -/
theorem stepKeepsTheInvariant : Obligations.StepKeepsTheInvariant := by
  intro s t hs h
  cases hin : s.inputs with
  | nil =>
    rw [step_of_nil hin] at h
    cases h
    exact hs
  | cons x rest =>
    rw [step_eq_next_of_cons hin] at h
    cases h
    exact hs.serve_oldest hin

/-- A machine just powered on, with legal widths and a bijective table, satisfies the invariant: it has nothing issued
and nothing answered. -/
theorem inv_powerOn {p : Widths} (hp : p.wf = true) {rom : Memory} (hwf : rom.wf = true) (hrom : rom.isBijection) :
    State.Inv { State.reset with widths := p, rom := rom } :=
  ⟨hp, hwf, hrom, fun _ hx => absurd hx List.not_mem_nil, fun _ hr => absurd hr List.not_mem_nil⟩

/-- Settles O2: reset is a power-on with the default widths and table. -/
theorem resetSatisfiesTheInvariant : Obligations.ResetSatisfiesTheInvariant :=
  inv_powerOn (p := Widths.default) rfl Memory.wf_nil defaultSbox_bijective

/-- Issuing an input that the ports can carry keeps the invariant. -/
theorem State.Inv.issue {s : State} (hs : s.Inv) {x : HostInput} (hx : x.expressible s.widths = true) :
    (s.issue x).Inv := by
  refine ⟨hs.widthsWf, hs.romWf, hs.romBijective, fun y hy => ?expressible, hs.responsesLegal⟩
  case expressible =>
    rcases List.mem_append.mp hy with hold | hnew
    · exact hs.inputsExpressible y hold
    · rwa [List.mem_singleton.mp hnew]

/-- Settles O4, by induction on how the state is reached: reset and power-on meet the invariant, and issuing
(`State.Inv.issue`) and stepping (O3) keep it. -/
theorem reachableStatesSatisfyTheInvariant : Obligations.ReachableStatesSatisfyTheInvariant := by
  intro s hs
  induction hs with
  | reset => exact resetSatisfiesTheInvariant
  | powerOn p hp f hf =>
    have hread : Memory.read (Memory.ofTable f) = f := funext (Memory.read_ofTable f)
    exact inv_powerOn hp (Memory.ofTable_wf f) (by rwa [Memory.isBijection, hread])
  | issue s x _ hx hinv => exact hinv.issue hx
  | step s t _ h hinv => exact stepKeepsTheInvariant s t hinv h

end Sys2Proof.Machine
end

section
/-! PROOFS. R60 to R65, R74 (30_encoding.md): the encoder and the decoder. The code selects the operation
(`Laws.EncodeSelects`); each operand comes back from the port that carries it. -/

namespace Sys2Proof

open Config Machine

/-- A text the ports can carry comes back from the text port as it was (R64). -/
theorem text_of_txt_encodeText {p : Widths} {r : Request} {t : Text} (ht : textWf p t = true)
    (hr : r.txt = encodeText p t) : r.text p = t := by
  have hfit : charsFit p t = true := (Bool.and_eq_true_iff.mp ht).1
  rw [encodeText_eq_self hfit] at hr
  have hport : charsFit p r.txt = true := by rwa [hr]
  rw [text_eq_txt hport, hr]

/-- A key the ports can carry comes back from the key port as it was (R64, R102). -/
theorem keyInt_of_key_encodeKey {p : Widths} (hp : p.wf = true) {r : Request} {k : Int} (hk : keyWf p k = true)
    (hr : r.key = encodeKey p k) : r.keyInt p = k := by
  have hkeyW : 1 ≤ p.keyW := by
    simp only [Widths.wf, Bool.and_eq_true, decide_eq_true_eq] at hp
    exact hp.1.2
  rw [Request.keyInt, hr, toInt_encodeKey hkeyW hk]

theorem decode_encode_subbytes (p : Widths) (st : BlockState) :
    decode p (encode p (.subbytes st)) = .ok (.subbytes st) :=
  (Laws.EncodeSelects.subbytes st p).trans
    (congrArg (fun st => Except.ok (Instr.subbytes st)) (unpackBlock_packBlock st))

theorem decode_encode_shiftrows (p : Widths) (st : BlockState) :
    decode p (encode p (.shiftrows st)) = .ok (.shiftrows st) :=
  (Laws.EncodeSelects.shiftrows st p).trans
    (congrArg (fun st => Except.ok (Instr.shiftrows st)) (unpackBlock_packBlock st))

theorem decode_encode_mixcols (p : Widths) (st : BlockState) :
    decode p (encode p (.mixcols st)) = .ok (.mixcols st) :=
  (Laws.EncodeSelects.mixcols st p).trans
    (congrArg (fun st => Except.ok (Instr.mixcols st)) (unpackBlock_packBlock st))

/-- Decoding undoes encoding on every instruction the ports can express (R61, R63). -/
theorem decode_encode {p : Widths} (hp : p.wf = true) {i : Instr} (hi : i.wf p = true) :
    decode p (encode p i) = .ok i := by
  cases i with
  | shiftenc txt key =>
    obtain ⟨htxt, hkey⟩ := Bool.and_eq_true_iff.mp hi
    rw [Laws.EncodeSelects.shiftenc txt key p]
    exact congrArg Except.ok (congrArg₂ Instr.shiftenc (text_of_txt_encodeText htxt rfl)
      (keyInt_of_key_encodeKey hp hkey rfl))
  | shiftdec txt key =>
    obtain ⟨htxt, hkey⟩ := Bool.and_eq_true_iff.mp hi
    rw [Laws.EncodeSelects.shiftdec txt key p]
    exact congrArg Except.ok (congrArg₂ Instr.shiftdec (text_of_txt_encodeText htxt rfl)
      (keyInt_of_key_encodeKey hp hkey rfl))
  | parsehex txt =>
    rw [Laws.EncodeSelects.parsehex txt p]
    exact congrArg (fun t => Except.ok (Instr.parsehex t)) (text_of_txt_encodeText hi rfl)
  | parseword txt =>
    rw [Laws.EncodeSelects.parseword txt p]
    exact congrArg (fun t => Except.ok (Instr.parseword t)) (text_of_txt_encodeText hi rfl)
  | subbytes st => exact decode_encode_subbytes p st
  | shiftrows st => exact decode_encode_shiftrows p st
  | mixcols st => exact decode_encode_mixcols p st
  | nextword prev four rcon =>
    rw [Laws.EncodeSelects.nextword prev four rcon p]
    simp only [Instr.operation, assemble, encode, Request.prev, Request.four, Request.rcon, unpackWord_packWord]
  | fmtbyte b => exact Laws.EncodeSelects.fmtbyte b p

/-- Settles O16: `decode_encode`, instruction by instruction. -/
theorem decodeOfEncodeIsTheInstruction : Obligations.DecodeOfEncodeIsTheInstruction :=
  fun _ _ hp hi => decode_encode hp hi

end Sys2Proof

namespace Sys2Proof.Machine

open Config

/-- A command that decodes is answered by its instruction (R69). -/
theorem respondInput_of_decode {p : Widths} {r : Request} {i : Instr} (rom : Memory) (h : decode p r = .ok i) :
    respondInput p rom (.command r) = some (respond rom i) := by
  simp only [respondInput, h]

/-- A command that does not decode is answered `IllegalOp` (R68). -/
theorem respondInput_of_decode_error {p : Widths} {r : Request} {e : DecodeError} (rom : Memory)
    (h : decode p r = .error e) : respondInput p rom (.command r) = some .illegalOp := by
  simp only [respondInput, h]

/-- Settles O17: either chip decodes its own request to the instruction (`decode_encode`), whose response does not
depend on the widths. -/
theorem theWidthsChangeNoResult : Obligations.TheWidthsChangeNoResult := by
  intro s s' i rest rest' hwidths hwidths' hrom hi hi' hin hin'
  have hresp := respondInput_of_decode s.rom (decode_encode hwidths hi)
  have hresp' := respondInput_of_decode s'.rom (decode_encode hwidths' hi')
  refine ⟨respond s.rom i, step_eq_next_of_respondInput hin hresp, ?other⟩
  case other =>
    rw [hrom]
    exact step_eq_next_of_respondInput hin' hresp'

/-- The key operand is congruent to the bits of the key port modulo 2^KEY_W (R64). -/
theorem keyInt_emod {p : Widths} {r : Request} (hkey : r.key < 2 ^ p.keyW) :
    r.keyInt p % (2 : Int) ^ p.keyW = (r.key : Int) := by
  have hport : (BitVec.ofNat p.keyW r.key).toNat = r.key := by
    rw [BitVec.toNat_ofNat, Nat.mod_eq_of_lt hkey]
  have hmod : r.keyInt p % ((2 ^ p.keyW : Nat) : Int) = r.key := by
    rw [Request.keyInt, BitVec.toInt_eq_toNat_bmod, Int.bmod_emod, hport, ← Int.natCast_mod, Nat.mod_eq_of_lt hkey]
  exact_mod_cast hmod

theorem getElem_unpackBlock (bus : BitVec 128) (i : Fin 16) :
    (unpackBlock bus)[i] = bus.extractLsb' (120 - 8 * i.val) 8 := by
  simp [unpackBlock]

theorem getElem_unpackWord (bus : BitVec 32) (i : Fin 4) :
    (unpackWord bus)[i] = bus.extractLsb' (24 - 8 * i.val) 8 := by
  simp [unpackWord]

/-- Settles O21: each code is that of its operation, whose operands `assemble` takes from the ports; the key's range
and residue are those of a two's-complement number. -/
theorem operandsComeFromTheListedPorts : Obligations.OperandsComeFromTheListedPorts := by
  intro p r hp hr
  obtain ⟨htxt, hkey⟩ := Bool.and_eq_true_iff.mp hr
  have hports : r.text p = r.txt := text_eq_txt (Bool.and_eq_true_iff.mp htxt).1
  have hdecode (o : Operation) (hop : r.op = codeOf o) : decode p r = .ok (assemble p o r) :=
    decode_of_op_eq_codeOf hop
  refine ⟨⟨r.keyInt p, ⟨BitVec.le_toInt _, BitVec.toInt_lt, keyInt_emod (of_decide_eq_true hkey)⟩, ?_, ?_⟩, ?_, ?_,
    hdecode .fmtbyte,
    ⟨r.block, getElem_unpackBlock r.stIn, hdecode .subbytes, hdecode .shiftrows, hdecode .mixcols⟩,
    ⟨r.prev, r.four, r.rcon, getElem_unpackWord r.wPrev, getElem_unpackWord r.wFour, getElem_unpackWord r.wRcon,
      hdecode .nextword⟩⟩ <;> rw [← hports]
  · exact hdecode .shiftenc
  · exact hdecode .shiftdec
  · exact hdecode .parsehex
  · exact hdecode .parseword

/-- Settles O18, by evaluating the decoder on each word; the empty text and the zero operands are those of the bare
request. -/
theorem wordsOfTheTableDecode : Obligations.WordsOfTheTableDecode := by
  unfold Obligations.WordsOfTheTableDecode
  decide

/-- Settles O19, by going through the nine rows and the sixteen words. -/
theorem atMostOneRowIsSelected : Obligations.AtMostOneRowIsSelected := by
  refine ⟨rfl, ?distinct, ?covered⟩
  case distinct => decide
  case covered => decide

end Sys2Proof.Machine
end

section
/-! PROOFS. R15, R20, R30, R51, R226, R227, R250 to R258: the steps of a run. A step serves the oldest input
(`step_eq_next_of_cons`); so a run answers each input alone and in order, and everything about runs is about
`respondInput`. -/

namespace Sys2Proof.Machine

/-- An input without a response (a reset or a cut command) is taken and nothing else changes (R250, R252). -/
theorem step_eq_next_of_no_response {s : State} {x : HostInput} {rest : List HostInput} (hin : s.inputs = x :: rest)
    (hresp : respondInput s.widths s.rom x = none) : step s = .next { s with inputs := rest } := by
  rw [step_eq_next_of_cons hin, hresp, Option.toList_none, List.append_nil]

/-- Settles O5: the step serves the command (`step_of_cons`), and serving is running what it decodes to. -/
theorem stepRunsTheDecodedCommand : Obligations.StepRunsTheDecodedCommand := by
  intro s r rest i hin hdec
  rw [step_of_cons hin]
  simp only [serve, hdec]

/-- Settles O6: the core is idle without an input, and a reset or a cut command has no response. -/
theorem withoutACommandNothingChanges : Obligations.WithoutACommandNothingChanges :=
  ⟨fun _ hin => step_of_nil hin, fun _ _ hin => step_eq_next_of_no_response hin rfl,
    fun _ _ _ hin => step_eq_next_of_no_response hin rfl⟩

/-- The shape of an `Ok` result is the one R61 fixes for the operation (R15). -/
theorem hasShape_of_respond {rom : Memory} {i : Instr} {v : Result} (h : respond rom i = .ok v) :
    v.hasShape i.operation = true := by
  cases i
  case parsehex txt =>
    simp only [respond] at h
    split at h
    · cases h
    · cases h; rfl
  case parseword txt =>
    simp only [respond] at h
    split at h
    · cases h
    · cases h; rfl
  all_goals cases h; rfl

/-- Settles O7: the response is the instruction's (`respondInput_of_decode`), of the shape of its operation, or
`IllegalOp` when there is none. -/
theorem everyCommandGetsExactlyOneResponse : Obligations.EveryCommandGetsExactlyOneResponse := by
  intro s r rest hin
  obtain ⟨resp, hresp⟩ := respondInput_command s.widths s.rom r
  refine ⟨resp, step_eq_next_of_respondInput hin hresp, fun i v hdec hok => ?shape, fun e herr => ?illegal⟩
  case shape =>
    rw [respondInput_of_decode s.rom hdec, hok] at hresp
    exact hasShape_of_respond (Option.some.inj hresp)
  case illegal =>
    rw [respondInput_of_decode_error s.rom herr] at hresp
    exact (Option.some.inj hresp).symm

/-- The addresses SUBBYTES reads are the lanes of its operand, in index order (R43). -/
theorem romReads_subbytes (st : BlockState) : romReads (.subbytes st) = (List.finRange 16).map fun i => st[i] := by
  have hlanes : Vector.ofFn (fun i : Fin 16 => st[i]) = st := blockState_ext fun i => by simp
  calc romReads (.subbytes st)
    _ = (Vector.ofFn fun i : Fin 16 => st[i]).toList := by rw [hlanes]; rfl
    _ = (List.finRange 16).map fun i => st[i] := by rw [Vector.toList_ofFn, List.ofFn_eq_map]

theorem romReads_eq_nil {i : Instr} (hsub : i.operation ≠ .subbytes) (hnext : i.operation ≠ .nextword) :
    romReads i = [] := by
  cases i with
  | subbytes st => exact absurd rfl hsub
  | nextword prev four rcon => exact absurd rfl hnext
  | _ => rfl

/-- Settles O9: both states deliver `respond`, which depends on the table at the listed addresses only
(`respond_congr`). -/
theorem onlyTheListedTableEntriesAreRead : Obligations.OnlyTheListedTableEntriesAreRead := by
  refine ⟨romReads_subbytes, fun _ _ _ => rfl, fun _ => romReads_eq_nil, fun i s s' hreads => ?response⟩
  case response =>
    refine ⟨respond s.rom i, exec_eq_answer i s, ?other⟩
    rw [respond_congr i hreads]
    exact exec_eq_answer i s'

/-- Settles O11: `exec_eq_answer` delivers one response and nothing else. -/
theorem frameOfEveryOperation : Obligations.FrameOfEveryOperation := by
  intro i s t h
  rw [exec_eq_answer] at h
  cases h
  exact ⟨fun _ => rfl, rfl, rfl, rfl, respond s.rom i, rfl⟩

/-- A run through everything issued delivers the inputs' responses in order. -/
theorem runSteps_all (inputs : List HostInput) {s : State} (hin : s.inputs = inputs) :
    runSteps inputs.length s = .next { s with
      inputs := [], responses := s.responses ++ inputs.filterMap (respondInput s.widths s.rom) } := by
  induction inputs generalizing s with
  | nil =>
    rcases s with ⟨widths, rom, inputs, responses⟩
    cases hin
    simp [runSteps]
  | cons x rest ih =>
    rw [List.length_cons, runSteps, step_eq_next_of_cons hin]
    simp only [ih]
    cases hx : respondInput s.widths s.rom x <;> simp [hx]

/-- What a core answers to an input that is the only one is the input's response (R30). -/
theorem answerAlone_eq (p : Config.Widths) (rom : Memory) : answerAlone p rom = respondInput p rom := by
  funext x
  have hstep := step_eq_next_of_cons (s := { widths := p, rom := rom, inputs := [x], responses := [] }) rfl
  simp only [answerAlone, hstep, List.nil_append, Option.head?_toList]

/-- Settles O12: `runSteps_all`, with each response named as the answer to the input alone. -/
theorem runAnswersEveryCommandInOrder : Obligations.RunAnswersEveryCommandInOrder := by
  intro s
  rw [answerAlone_eq]
  exact runSteps_all s.inputs rfl

/-- Settles O13: the responses are a `filterMap` of the inputs, and that keeps permutations. -/
theorem interleavingOfHostsDoesNotMatter : Obligations.InterleavingOfHostsDoesNotMatter := by
  intro s s' hwidths hrom hperm
  refine ⟨_, _, _, _, runSteps_all s.inputs rfl, runSteps_all s'.inputs rfl, rfl, rfl, ?perm⟩
  case perm =>
    rw [hwidths, hrom]
    exact hperm.filterMap _

/-- Settles O14: whether `x` was served before or not, the response to `y` is `respondInput` of the same widths and
table. -/
theorem anInputIsServedAsIfTheOneBeforeWereNeverIssued :
    Obligations.AnInputIsServedAsIfTheOneBeforeWereNeverIssued := by
  intro s t x y rest hin h
  rw [step_eq_next_of_cons hin] at h
  cases h
  exact ⟨_, _, (respondInput s.widths s.rom y).toList, step_eq_next_of_cons rfl, step_eq_next_of_cons rfl,
    rfl, rfl, rfl, rfl, rfl⟩

/-- A reset and a cut command have no response (R250, R252). -/
theorem respondInput_of_not_isCommand {x : HostInput} (hx : x.isCommand = false) (p : Config.Widths) (rom : Memory) :
    respondInput p rom x = none := by
  cases x with
  | command r => cases hx
  | reset | commandCutByReset r => rfl

/-- The commands alone have the responses of all inputs. -/
theorem filterMap_respondInput_filter_isCommand (p : Config.Widths) (rom : Memory) (inputs : List HostInput) :
    (inputs.filter HostInput.isCommand).filterMap (respondInput p rom) = inputs.filterMap (respondInput p rom) := by
  rw [List.filterMap_filter]
  refine List.filterMap_congr fun x _ => ?_
  cases hx : x.isCommand with
  | true => rfl
  | false => simp [respondInput_of_not_isCommand hx]

/-- Settles O15: both runs deliver the responses of the commands (`runSteps_all`). -/
theorem resetsLeaveNoTrace : Obligations.ResetsLeaveNoTrace := by
  intro s
  have hcommands := runSteps_all (s.inputs.filter HostInput.isCommand)
    (s := { s with inputs := s.inputs.filter HostInput.isCommand }) rfl
  rw [filterMap_respondInput_filter_isCommand] at hcommands
  exact ⟨_, runSteps_all s.inputs rfl, hcommands⟩

end Sys2Proof.Machine
end

section
/-! PROOFS. R63, R66 to R70, R221, R223: the status and the response ports. First which rows give which responses, then
what a response drives. -/

namespace Sys2Proof.Machine

open Config

/-- The operand assembly of a row gives its operation (R61). -/
@[simp] theorem operation_assemble (p : Widths) (o : Operation) (r : Request) : (assemble p o r).operation = o := by
  cases o <;> rfl

/-- Two of the nine operations can fail (R61). -/
theorem canFail_iff {row : OpRow} (hrow : row ∈ opTable) :
    row.canFail = true ↔ row.operation = .parsehex ∨ row.operation = .parseword := by
  revert row; decide

/-- An operation other than the parsers answers OK (R67, R222). -/
theorem respond_eq_ok {i : Instr} (hhex : i.operation ≠ .parsehex) (hword : i.operation ≠ .parseword) (rom : Memory) :
    ∃ v : Result, respond rom i = .ok v := by
  cases i with
  | parsehex txt => exact absurd rfl hhex
  | parseword txt => exact absurd rfl hword
  | _ => exact ⟨_, rfl⟩

/-- No operation answers `IllegalOp` (R225 b). -/
theorem respond_ne_illegalOp (rom : Memory) (i : Instr) : respond rom i ≠ .illegalOp := by
  cases i
  case parsehex txt => simp only [respond]; split <;> nofun
  case parseword txt => simp only [respond]; split <;> nofun
  all_goals nofun

/-- A command that selects a row is answered by the row's operation. -/
theorem respondInput_of_selectRow {r : Request} {row : OpRow} (h : selectRow r.op = some row) (p : Widths)
    (rom : Memory) : respondInput p rom (.command r) = some (respond rom (assemble p row.operation r)) :=
  respondInput_of_decode rom ((decode_eq_ok_iff p r _).mpr ⟨row, h, rfl⟩)

/-- A command that selects no row is answered `IllegalOp` (R68, R223). -/
theorem respondInput_of_selectRow_none {r : Request} (h : selectRow r.op = none) (p : Widths) (rom : Memory) :
    respondInput p rom (.command r) = some .illegalOp :=
  respondInput_of_decode_error rom ((decode_eq_error_iff p r _).mpr ⟨h, rfl⟩)

@[simp] theorem status_drive_ok (p : Widths) (v : Result) : ((Response.ok v).drive p).status = 0 := by
  cases v <;> rfl

@[simp] theorem status_drive_invalidInput (p : Widths) (n a : Nat) (l c : Bool) :
    ((Response.invalidInput n a l c).drive p).status = 1 := rfl

@[simp] theorem status_drive_illegalOp (p : Widths) : (Response.illegalOp.drive p).status = 2 := rfl

/-- `IllegalOp` drives no port but the status (R223). -/
theorem isDriven_illegalOp (p : Widths) (q : ResponsePort) : (Response.illegalOp.drive p).isDriven q = false := by
  cases q <;> rfl

/-- Settles O20: the codes 0x0 and from 0xA up select no row (`selectRow_eq_none_iff`); the others do, and no operation
answers `IllegalOp`. -/
theorem unassignedCodesGetIllegalOp : Obligations.UnassignedCodesGetIllegalOp := by
  refine ⟨fun s r rest hin hop => ?unassigned, fun s t r rest hin hlow hhigh h => ?assigned,
    fun p => ⟨rfl, isDriven_illegalOp p⟩⟩
  case unassigned =>
    have hnone : selectRow r.op = none := (selectRow_eq_none_iff r.op).mpr (hop.imp_right BitVec.le_def.mpr)
    exact step_eq_next_of_respondInput hin (respondInput_of_selectRow_none hnone s.widths s.rom)
  case assigned =>
    cases hrow : selectRow r.op with
    | none =>
      rcases (selectRow_eq_none_iff r.op).mp hrow with hzero | hten
      · rw [hzero] at hlow
        exact absurd hlow (by decide)
      · have hten : 10 ≤ r.op.toNat := BitVec.le_def.mp hten
        omega
    | some row =>
      rw [step_eq_next_of_respondInput hin (respondInput_of_selectRow hrow s.widths s.rom)] at h
      cases h
      rw [List.getLast?_concat]
      exact fun heq => respond_ne_illegalOp _ _ (Option.some.inj heq)

/-- Settles O24: the three statuses, and `respond_eq_ok` for the rows that cannot fail. -/
theorem statusValues : Obligations.StatusValues := by
  refine ⟨status_drive_ok, status_drive_invalidInput, status_drive_illegalOp, fun p resp => ?never,
    fun s r rest row hin hrow htotal => ?total, fun row => canFail_iff⟩
  case never => cases resp <;> simp
  case total =>
    have hnot : ¬(row.operation = .parsehex ∨ row.operation = .parseword) := by
      rw [← canFail_iff (mem_opTable_of_selectRow hrow), htotal]
      decide
    obtain ⟨hhex, hword⟩ := not_or.mp hnot
    obtain ⟨v, hv⟩ := respond_eq_ok (i := assemble s.widths row.operation r) (by simpa) (by simpa) s.rom
    exact ⟨v, step_eq_next_of_respondInput hin (hv ▸ respondInput_of_selectRow hrow s.widths s.rom)⟩

/-- The result ports of a result (R63, R66). -/
def Result.ports : Result → List ResponsePort
  | .text _ => [.txtOut]
  | .block _ => [.stOut]
  | .word _ => [.wOut]
  | .keyWord _ _ _ _ => [.wOut, .wRot, .wSub, .wXrc]

/-- The ports of a result of an operation's shape are the ones its row lists (R61, R63). -/
theorem ports_eq_drives {row : OpRow} (hrow : row ∈ opTable) {v : Result} (hv : v.hasShape row.operation = true) :
    v.ports = row.drives := by
  revert hv
  simp only [opTable, shiftRowsOfTable, blockRowsOfTable, wordRowsOfTable, List.cons_append, List.nil_append,
    List.mem_cons, List.not_mem_nil, or_false] at hrow
  rcases hrow with rfl | rfl | rfl | rfl | rfl | rfl | rfl | rfl | rfl <;>
    cases v <;> simp [Result.hasShape, Result.ports]

/-- A result that fits drives exactly its ports (R63, R70). -/
theorem isDriven_ok_iff {p : Widths} {v : Result} (hv : v.legal p = true) (q : ResponsePort) :
    ((Response.ok v).drive p).isDriven q = true ↔ q ∈ v.ports := by
  cases v with
  | text t =>
    have hout : textOut p t = some t := if_pos hv
    cases q <;> simp [Response.drive, Result.drive, ResponsePorts.bare, ResponsePorts.isDriven, Result.ports, hout]
  | block st | word w | keyWord out rot sub xrc =>
    cases q <;> simp [Response.drive, Result.drive, ResponsePorts.bare, ResponsePorts.isDriven, Result.ports]

theorem lengthOut_of_lt {p : Widths} {n : Nat} (h : n < 2 ^ p.lenW) : lengthOut p n = some n := if_pos h

/-- An error that fits drives exactly the four error fields (R221). -/
theorem isDriven_invalidInput_iff {p : Widths} {n a : Nat} (hn : n < 2 ^ p.lenW) (ha : a < 2 ^ p.lenW) (l c : Bool)
    (q : ResponsePort) : ((Response.invalidInput n a l c).drive p).isDriven q = true ↔
      q ∈ [ResponsePort.expLen, ResponsePort.actLen, ResponsePort.errLen, ResponsePort.errChar] := by
  cases q <;> simp [Response.drive, ResponsePorts.bare, ResponsePorts.isDriven, lengthOut_of_lt hn, lengthOut_of_lt ha]

/-- The lengths of a legal error fit their ports (R221). -/
theorem lengths_lt_of_legal {p : Widths} (hp : p.wf = true) {n a : Nat} {l c : Bool}
    (h : (Response.invalidInput n a l c).legal p = true) : n < 2 ^ p.lenW ∧ a < 2 ^ p.lenW := by
  simp only [Response.legal, Bool.and_eq_true, Bool.or_eq_true, beq_iff_eq, decide_eq_true_eq] at h
  obtain ⟨⟨⟨hn, ha⟩, -⟩, -⟩ := h
  have hwide := le_two_pow_lenW hp
  exact ⟨by omega, ha⟩

/-- Settles O22: the response to a command the ports can carry is legal, so what it drives fits; an `Ok` has the shape
of the row's operation, whose ports the row lists. -/
theorem exactlyTheListedPortsAreDriven : Obligations.ExactlyTheListedPortsAreDriven := by
  intro s r rest hp hin hr
  obtain ⟨resp, hresp⟩ := respondInput_command s.widths s.rom r
  have hlegal : resp.legal s.widths = true := legal_of_respondInput (x := .command r) hp hr hresp
  refine ⟨resp, _, step_eq_next_of_respondInput hin hresp, rfl, ?_⟩
  cases resp with
  | illegalOp => exact ⟨rfl, isDriven_illegalOp s.widths⟩
  | invalidInput n a l c =>
    obtain ⟨hn, ha⟩ := lengths_lt_of_legal hp hlegal
    exact ⟨rfl, isDriven_invalidInput_iff hn ha l c⟩
  | ok v =>
    cases hrow : selectRow r.op with
    | none =>
      rw [respondInput_of_selectRow_none hrow] at hresp
      cases hresp
    | some row =>
      rw [respondInput_of_selectRow hrow] at hresp
      have hshape := hasShape_of_respond (Option.some.inj hresp)
      rw [operation_assemble] at hshape
      refine ⟨status_drive_ok s.widths v, row, rfl, fun q => ?driven⟩
      case driven =>
        rw [isDriven_ok_iff hlegal, ports_eq_drives (mem_opTable_of_selectRow hrow) hshape]

/-- Nothing issued: no response is at hand. -/
theorem responseAtHand_of_nil {s : State} (hin : s.inputs = []) : s.responseAtHand = none := by
  simp [State.responseAtHand, step_of_nil hin]

/-- The response at hand is that of the oldest input. -/
theorem responseAtHand_of_cons {s : State} {x : HostInput} {rest : List HostInput} (hin : s.inputs = x :: rest) :
    s.responseAtHand = respondInput s.widths s.rom x := by
  simp [State.responseAtHand, step_eq_next_of_cons hin]

/-- Settles O23: the outputs are those of the response at hand, which is the oldest input's. -/
theorem outputsAreThoseOfTheResponseAtHand : Obligations.OutputsAreThoseOfTheResponseAtHand := by
  refine ⟨fun s hin => ?idle, fun s rest hin => ?reset, fun s r rest hin => ?cut, fun s r rest hin => ?command⟩
  case idle => rw [State.outputs, responseAtHand_of_nil hin, Option.map_none]
  case reset => rw [State.outputs, responseAtHand_of_cons hin, respondInput, Option.map_none]
  case cut => rw [State.outputs, responseAtHand_of_cons hin, respondInput, Option.map_none]
  case command =>
    obtain ⟨resp, hresp⟩ := respondInput_command s.widths s.rom r
    refine ⟨resp, step_eq_next_of_respondInput hin hresp, ?outputs⟩
    case outputs => rw [State.outputs, responseAtHand_of_cons hin, hresp, Option.map_some]

/-- Settles O1: reset is its literal, and nothing issued means no response at hand. -/
theorem resetLeavesTheDefaultTable : Obligations.ResetLeavesTheDefaultTable := by
  refine ⟨rfl, fun a => rfl, rfl, rfl, ?outputs⟩
  case outputs => rw [State.outputs, responseAtHand_of_nil State.reset_inputs, Option.map_none]

/-- Lane `i` of a BlockState's bus (R45). -/
theorem extractByte_packBlock_lane (st : BlockState) (i : Fin 16) :
    (packBlock st).extractLsb' (120 - 8 * i.val) 8 = st[i] := by
  rw [← getElem_unpackBlock, unpackBlock_packBlock]

/-- A flag on its one-bit port. -/
theorem ofBool_eq_ite (b : Bool) : BitVec.ofBool b = if b then 1 else 0 := by cases b <;> rfl

/-- Settles O25: buses are read back lane by lane (`extractByte_packBlock_lane`, `extractByte_packWord`); what fits a
text or length port is on it. -/
theorem valuesOnTheResponsePorts : Obligations.ValuesOnTheResponsePorts := by
  refine fun p => ⟨fun st => ⟨packBlock st, rfl, extractByte_packBlock_lane st⟩,
    fun w => ⟨packWord w, rfl, extractByte_packWord w⟩,
    fun out rot sub xrc => ⟨_, packWord out, packWord rot, packWord sub, packWord xrc, rfl, rfl, rfl, rfl, rfl,
      fun i => ⟨extractByte_packWord out i, extractByte_packWord rot i, extractByte_packWord sub i,
        extractByte_packWord xrc i⟩⟩,
    fun t ht => if_pos ht,
    fun n a l c hn ha => ⟨_, rfl, lengthOut_of_lt hn, lengthOut_of_lt ha,
      congrArg some (ofBool_eq_ite l), congrArg some (ofBool_eq_ite c)⟩⟩

end Sys2Proof.Machine
end

section
/-! PROOFS. R101 to R111 (40_shiftcipher.md): the shift cipher. A character's image as one formula in the whole key;
from it, decryption is encryption by the opposite key, encryptions add their keys and a multiple of 26 changes nothing;
the laws of texts follow from these three. -/

namespace Sys2Proof.Machine

/-- An operation delivers a given response exactly when it is its own. -/
theorem exec_eq_next_append_iff (i : Instr) (s : State) (resp : Response) :
    exec i s = .next { s with responses := s.responses ++ [resp] } ↔ respond s.rom i = resp := by
  rw [exec_eq_answer]
  simp [State.answer]

/-- The effective key acts as the key itself, modulo 26 (R102). -/
theorem fmod_add_sign_mul_effectiveKey (dir : Direction) (n key : Int) :
    fmod (n + dir.sign * effectiveKey key) 26 = ((n + dir.sign * key) % 26).toNat := by
  cases dir <;> simp only [Direction.sign, effectiveKey, fmod] <;> omega

/-- R105 with the whole key in place of the effective one. -/
theorem shiftCharByKey_eq (dir : Direction) (key : Int) (c : Nat) :
    shiftCharByKey dir key c =
      if 0x41 ≤ c ∧ c ≤ 0x5A then 0x41 + (((c : Int) - 0x41 + dir.sign * key) % 26).toNat
      else if 0x61 ≤ c ∧ c ≤ 0x7A then 0x61 + (((c : Int) - 0x61 + dir.sign * key) % 26).toNat
      else c := by
  simp only [shiftCharByKey, shiftChar, isUpper_iff, isLower_iff, fmod_add_sign_mul_effectiveKey]

/-- Settles O26: `shiftCharByKey_eq` in the direction +1. -/
theorem shiftencAnswersTheShiftedText : Obligations.ShiftencAnswersTheShiftedText := by
  intro txt key s
  rw [exec_shiftenc, shiftText_eq_map, funext (shiftCharByKey_eq .encrypt key), Direction.sign]
  simp only [one_mul]
  rfl

/-- Settles O27: `shiftCharByKey_eq` in the direction -1. -/
theorem shiftdecAnswersTheShiftedText : Obligations.ShiftdecAnswersTheShiftedText := by
  intro txt key s
  rw [exec_shiftdec, shiftText_eq_map, funext (shiftCharByKey_eq .decrypt key), Direction.sign]
  simp only [neg_one_mul, ← sub_eq_add_neg]
  rfl

theorem shiftCharByKey_decrypt (key : Int) (c : Nat) :
    shiftCharByKey .decrypt key c = shiftCharByKey .encrypt (-key) c := by
  simp only [shiftCharByKey_eq, Direction.sign, neg_one_mul, one_mul]

/-- A letter stays in its range, so the second shift is by the same rule as the first. -/
theorem shiftCharByKey_encrypt_encrypt (key key' : Int) (c : Nat) :
    shiftCharByKey .encrypt key' (shiftCharByKey .encrypt key c) = shiftCharByKey .encrypt (key + key') c := by
  simp only [shiftCharByKey_eq, Direction.sign, one_mul]
  split_ifs <;> omega

theorem shiftCharByKey_of_emod_eq_zero {key : Int} (h : key % 26 = 0) (c : Nat) :
    shiftCharByKey .encrypt key c = c := by
  simp only [shiftCharByKey_eq, Direction.sign, one_mul]
  split_ifs <;> omega

/-- Decrypting is encrypting by the opposite key (R110). -/
theorem shiftText_decrypt (txt : Text) (key : Int) : shiftText .decrypt txt key = shiftText .encrypt txt (-key) := by
  simp only [shiftText_eq_map, funext (shiftCharByKey_decrypt key)]

/-- Encryptions add their keys (R110). -/
theorem shiftText_encrypt_encrypt (txt : Text) (key key' : Int) :
    shiftText .encrypt (shiftText .encrypt txt key) key' = shiftText .encrypt txt (key + key') := by
  simp only [shiftText_eq_map, List.map_map, Function.comp_def, shiftCharByKey_encrypt_encrypt]

/-- A key that is a multiple of 26 changes nothing (R109). -/
theorem shiftText_of_emod_eq_zero {key : Int} (h : key % 26 = 0) (txt : Text) : shiftText .encrypt txt key = txt := by
  rw [shiftText_eq_map, funext (shiftCharByKey_of_emod_eq_zero h)]
  exact List.map_id' txt

/-- Keys act modulo 26 (R102, R110). -/
theorem shiftText_congr {key key' : Int} (h : key % 26 = key' % 26) (dir : Direction) (txt : Text) :
    shiftText dir txt key = shiftText dir txt key' := by
  have hkey : effectiveKey key = effectiveKey key' := congrArg Int.toNat h
  simp only [shiftText, hkey]

theorem shiftText_decrypt_encrypt (txt : Text) (key : Int) :
    shiftText .decrypt (shiftText .encrypt txt key) key = txt := by
  rw [shiftText_decrypt, shiftText_encrypt_encrypt, shiftText_of_emod_eq_zero (by omega)]

theorem shiftText_encrypt_decrypt (txt : Text) (key : Int) :
    shiftText .encrypt (shiftText .decrypt txt key) key = txt := by
  rw [shiftText_decrypt, shiftText_encrypt_encrypt, shiftText_of_emod_eq_zero (by omega)]

/-- Settles O29: the two round trips of `shiftText`. -/
theorem shiftRoundTrip : Obligations.ShiftRoundTrip := by
  refine fun txt key => ⟨shiftText .encrypt txt key, shiftText .decrypt txt key, fun s =>
    ⟨exec_shiftenc txt key s, ?encThenDec, exec_shiftdec txt key s, ?decThenEnc⟩⟩
  case encThenDec => rw [exec_shiftdec, shiftText_decrypt_encrypt, State.answer]
  case decThenEnc => rw [exec_shiftenc, shiftText_encrypt_decrypt, State.answer]

/-- Settles O30: each clause is a law of `shiftText`. -/
theorem shiftKeysActModulo26 : Obligations.ShiftKeysActModulo26 := by
  intro txt key s
  simp only [exec_shiftenc, exec_shiftdec]
  refine ⟨?encPeriod, ?decPeriod, ?opposite, ?residue, fun hkey => ?identity, fun mid key' hmid => ?compose⟩
  case encPeriod => rw [shiftText_congr (by omega : (key + 26) % 26 = key % 26)]
  case decPeriod => rw [shiftText_congr (by omega : (key + 26) % 26 = key % 26)]
  case opposite => rw [shiftText_decrypt]
  case residue => rw [shiftText_decrypt, shiftText_congr (by omega : -key % 26 = (26 - key % 26) % 26)]
  case identity => rw [shiftText_of_emod_eq_zero hkey, State.answer]
  case compose =>
    rw [← exec_shiftenc, exec_eq_next_append_iff] at hmid
    have htext : shiftText .encrypt txt key = mid := Result.text.inj (Response.ok.inj hmid)
    rw [← htext, shiftText_encrypt_encrypt]

/-- A shifted uppercase letter is one, and nothing else becomes one (R105). -/
theorem isUpper_shiftCharByKey (dir : Direction) (key : Int) (c : Nat) :
    isUpper (shiftCharByKey dir key c) = isUpper c := by
  rw [Bool.eq_iff_iff, isUpper_iff, isUpper_iff, shiftCharByKey_eq]
  split_ifs <;> omega

/-- A shifted lowercase letter is one, and nothing else becomes one (R105). -/
theorem isLower_shiftCharByKey (dir : Direction) (key : Int) (c : Nat) :
    isLower (shiftCharByKey dir key c) = isLower c := by
  rw [Bool.eq_iff_iff, isLower_iff, isLower_iff, shiftCharByKey_eq]
  split_ifs <;> omega

/-- A class that the shift of a character keeps, the shift of a text keeps in each place. -/
theorem map_shiftText {dir : Direction} {key : Int} {cls : Nat → Bool}
    (h : ∀ c : Nat, cls (shiftCharByKey dir key c) = cls c) (txt : Text) :
    (shiftText dir txt key).map cls = txt.map cls := by
  rw [shiftText_eq_map, List.map_map]
  exact List.map_congr_left fun c _ => h c

/-- Settles O31: lengths and classes character by character; the one text taken to `out` is `out` shifted back. -/
theorem shiftKeepsClassesAndIsABijection : Obligations.ShiftKeepsClassesAndIsABijection := by
  refine ⟨fun txt key s => ?classes, fun out key s => ⟨?enc, ?dec⟩⟩
  case classes =>
    exact ⟨_, _, exec_shiftenc txt key s, exec_shiftdec txt key s, length_shiftText .encrypt txt key,
      length_shiftText .decrypt txt key, map_shiftText (isUpper_shiftCharByKey .encrypt key) txt,
      map_shiftText (isUpper_shiftCharByKey .decrypt key) txt, map_shiftText (isLower_shiftCharByKey .encrypt key) txt,
      map_shiftText (isLower_shiftCharByKey .decrypt key) txt⟩
  case enc =>
    simp only [exec_eq_next_append_iff, respond, Response.ok.injEq, Result.text.injEq]
    refine ⟨shiftText .decrypt out key, shiftText_encrypt_decrypt out key, fun txt htxt => ?unique⟩
    case unique => rw [← htxt, shiftText_decrypt_encrypt]
  case dec =>
    simp only [exec_eq_next_append_iff, respond, Response.ok.injEq, Result.text.injEq]
    refine ⟨shiftText .encrypt out key, shiftText_decrypt_encrypt out key, fun txt htxt => ?unique⟩
    case unique => rw [← htxt, shiftText_encrypt_decrypt]

@[simp] theorem length_decTable (k : Nat) : (decTable k).length = 26 := by simp [decTable]

/-- Entry `j` of the decoder's table (R111). -/
theorem getD_decTable {j : Nat} (hj : j < 26) (k : Nat) : (decTable k).getD j 0 = fmod ((j : Int) - k) 26 := by
  simp [decTable, List.getD, hj]

/-- Settles O32: for a letter the table's entry at its position is the remainder of R105 in the direction -1. -/
theorem tableLookupDecoderAgrees : Obligations.TableLookupDecoderAgrees := by
  refine fun k _ => ⟨length_decTable k, fun c => ?agrees⟩
  case agrees =>
    simp only [decodeCharByTable, shiftChar, Direction.sign, neg_one_mul, ← sub_eq_add_neg]
    split
    case isTrue hupper =>
      rw [isUpper_iff] at hupper
      rw [getD_decTable (by omega), Nat.cast_sub hupper.1, Nat.cast_ofNat]
    case isFalse =>
      split
      case isTrue hlower =>
        rw [isLower_iff] at hlower
        rw [getD_decTable (by omega), Nat.cast_sub hlower.1, Nat.cast_ofNat]
      case isFalse => rfl

end Sys2Proof.Machine
end

section
/-! PROOFS. R121 to R128, R222 (41_parse.md): the parsers. What they answer on digits and on everything else; that the
answer depends on the text through `upperDigit` only; and that formatting is the inverse of parsing. -/

namespace Sys2Proof.Machine

/-- Settles O33: the three ranges are disjoint, so the first test that holds gives the value. -/
theorem hexDigitsAndTheirValues : Obligations.HexDigitsAndTheirValues := by
  intro c
  simp only [hexVal, isDecDigit_iff, isUpperHex_iff]
  exact ⟨isHex_iff c, fun _ _ => by split_ifs <;> omega, fun _ _ => by split_ifs <;> omega,
    fun _ _ => by split_ifs <;> omega⟩

theorem isHex_getD {txt : Text} (hhex : ∀ c ∈ txt, isHex c = true) {j : Nat} (hj : j < txt.length) :
    isHex (txt.getD j 0) = true := by
  rw [List.getD_eq_getElem _ _ hj]
  exact hhex _ (List.getElem_mem hj)

/-- A Byte of a text of digits is that of its pair, the high nibble first (R122, D20). -/
theorem toNat_getElem_hexBytes {n : Nat} {txt : Text} (hlen : txt.length = 2 * n)
    (hhex : ∀ c ∈ txt, isHex c = true) (i : Fin n) : (hexBytes n txt)[i].toNat =
      16 * hexVal (txt.getD (2 * i.val) 0) + hexVal (txt.getD (2 * i.val + 1) 0) := by
  rw [Fin.getElem_fin, getElem_hexBytes,
    toNat_pairByte (isHex_getD hhex (by omega)) (isHex_getD hhex (by omega))]

/-- Settles O34: PARSEHEX delivers `hexBytes`, whose Bytes are those of the pairs. -/
theorem parsehexAnswersOn32Digits : Obligations.ParsehexAnswersOn32Digits :=
  fun txt s hlen hhex =>
    ⟨hexBytes 16 txt, exec_parsehex_of_digits hlen hhex s, toNat_getElem_hexBytes hlen hhex⟩

/-- Settles O35: PARSEWORD delivers `hexBytes`, whose Bytes are those of the pairs. -/
theorem parsewordAnswersOn8Digits : Obligations.ParsewordAnswersOn8Digits :=
  fun txt s hlen hhex =>
    ⟨hexBytes 4 txt, exec_parseword_of_digits hlen hhex s, toNat_getElem_hexBytes hlen hhex⟩

/-- A parser fails exactly on a text of another length or with a character that is no digit (R124). -/
theorem parseFails_iff (n : Nat) (txt : Text) :
    parseFails n txt = true ↔ txt.length ≠ n ∨ ∃ c ∈ txt, isHex c = false := by
  rw [parseFails, Bool.or_eq_true, errLen_iff, errChar_iff]

/-- The error of R124 and R125, its flags in words. -/
theorem invalidInput_flags (n : Nat) (txt : Text) :
    Response.invalidInput n txt.length (errLen n txt) (errChar txt) =
      .invalidInput n txt.length (decide (txt.length ≠ n)) (decide (∃ c ∈ txt, isHex c = false)) := by
  congr 1
  · rw [Bool.eq_iff_iff, errLen_iff, decide_eq_true_iff]
  · rw [Bool.eq_iff_iff, errChar_iff, decide_eq_true_iff]

/-- Settles O36: a text that is not all digits, or not as many, makes the parser fail (`parseFails_iff`). -/
theorem parsersRaiseInvalidInputOtherwise : Obligations.ParsersRaiseInvalidInputOtherwise := by
  refine fun txt s => ⟨fun hbad => ?hex, fun hbad => ?word⟩
  case hex => rw [exec_eq_answer, respond, if_pos ((parseFails_iff 32 txt).mpr hbad), invalidInput_flags, State.answer]
  case word => rw [exec_eq_answer, respond, if_pos ((parseFails_iff 8 txt).mpr hbad), invalidInput_flags, State.answer]

/-- An InvalidInput is a parser's, with its own required length and flags, and the parser failed (R222). -/
theorem parser_of_respond_invalidInput {rom : Memory} {i : Instr} {n a : Nat} {l c : Bool}
    (h : respond rom i = .invalidInput n a l c) :
    ∃ txt : Text, ((i = .parsehex txt ∧ n = 32) ∨ (i = .parseword txt ∧ n = 8)) ∧
      parseFails n txt = true ∧ l = errLen n txt ∧ c = errChar txt := by
  cases i
  case parsehex txt =>
    simp only [respond] at h
    split at h
    · cases h; exact ⟨txt, .inl ⟨rfl, rfl⟩, ‹_›, rfl, rfl⟩
    · cases h
  case parseword txt =>
    simp only [respond] at h
    split at h
    · cases h; exact ⟨txt, .inr ⟨rfl, rfl⟩, ‹_›, rfl, rfl⟩
    · cases h
  all_goals cases h

/-- Settles O37: the last response is the operation's, and `parser_of_respond_invalidInput` says whose it is. -/
theorem onlyTheParsersRaiseInvalidInput : Obligations.OnlyTheParsersRaiseInvalidInput := by
  intro i s t n a l c h hlast
  rw [exec_eq_answer] at h
  cases h
  rw [State.answer_responses, List.getLast?_concat] at hlast
  obtain ⟨txt, hparser, hfails, rfl, rfl⟩ := parser_of_respond_invalidInput (Option.some.inj hlast)
  exact ⟨txt, hparser, Bool.or_eq_true_iff.mp hfails, (parseFails_iff n txt).mp hfails⟩

/-- Upper-casing a digit letter leaves it a digit, and makes no other code one (R121). -/
theorem isHex_upperDigit (c : Nat) : isHex (upperDigit c) = isHex c := by
  rw [Bool.eq_iff_iff, isHex_iff, isHex_iff, upperDigit]
  split_ifs <;> omega

/-- Upper-casing keeps the value of a digit (R121). -/
theorem hexVal_upperDigit (c : Nat) : hexVal (upperDigit c) = hexVal c := by
  simp only [hexVal, upperDigit, isDecDigit_iff, isUpperHex_iff]
  split_ifs <;> omega

theorem errLen_map_upperDigit (n : Nat) (txt : Text) : errLen n (txt.map upperDigit) = errLen n txt := by
  rw [errLen, errLen, List.length_map]

theorem errChar_map_upperDigit (txt : Text) : errChar (txt.map upperDigit) = errChar txt := by
  simp only [errChar, List.any_map, Function.comp_def, isHex_upperDigit]

theorem parseFails_map_upperDigit (n : Nat) (txt : Text) : parseFails n (txt.map upperDigit) = parseFails n txt := by
  rw [parseFails, parseFails, errLen_map_upperDigit, errChar_map_upperDigit]

theorem getD_map_upperDigit (txt : Text) (j : Nat) : (txt.map upperDigit).getD j 0 = upperDigit (txt.getD j 0) :=
  List.getD_map txt 0 upperDigit

theorem hexBytes_map_upperDigit (n : Nat) (txt : Text) : hexBytes n (txt.map upperDigit) = hexBytes n txt := by
  simp only [hexBytes, pairByte, getD_map_upperDigit, hexVal_upperDigit]

/-- PARSEHEX does not see the case of the digits (R128 b). -/
theorem respond_parsehex_map_upperDigit (rom : Memory) (txt : Text) :
    respond rom (.parsehex (txt.map upperDigit)) = respond rom (.parsehex txt) := by
  rw [respond, respond, parseFails_map_upperDigit, errLen_map_upperDigit, errChar_map_upperDigit,
    hexBytes_map_upperDigit, List.length_map]

/-- PARSEWORD does not see the case of the digits (R128 b). -/
theorem respond_parseword_map_upperDigit (rom : Memory) (txt : Text) :
    respond rom (.parseword (txt.map upperDigit)) = respond rom (.parseword txt) := by
  rw [respond, respond, parseFails_map_upperDigit, errLen_map_upperDigit, errChar_map_upperDigit,
    hexBytes_map_upperDigit, List.length_map]

/-- Settles O38: both texts have the response of the text in upper case. -/
theorem parsersIgnoreTheCaseOfDigits : Obligations.ParsersIgnoreTheCaseOfDigits := by
  refine fun txt txt' s hupper => ⟨?hex, ?word⟩
  case hex =>
    rw [exec_eq_answer, exec_eq_answer, ← respond_parsehex_map_upperDigit, hupper, respond_parsehex_map_upperDigit]
  case word =>
    rw [exec_eq_answer, exec_eq_answer, ← respond_parseword_map_upperDigit, hupper, respond_parseword_map_upperDigit]

/-- The pair of a Byte's two digits makes the Byte (R211, R122). -/
theorem pairByte_hexDigit (b : Byte) : pairByte (hexDigit (b.toNat / 16)) (hexDigit (b.toNat % 16)) = b := by
  rw [pairByte, hexVal_hexDigit (by omega), hexVal_hexDigit (by omega), Nat.div_add_mod, BitVec.ofNat_toNat,
    BitVec.setWidth_eq]

/-- Parsing the digits of a list of Bytes gives the Bytes (R128 d). -/
theorem toList_hexBytes_flatMap_formatByte (bs : List Byte) :
    (hexBytes bs.length (bs.flatMap formatByte)).toList = bs := by
  induction bs with
  | nil => rfl
  | cons b bs ih =>
    rw [List.flatMap_cons, formatByte_eq, List.length_cons]
    simp only [List.cons_append, List.nil_append, toList_hexBytes_succ, ih, pairByte_hexDigit]

theorem hexBytes_flatMap_formatByte {n : Nat} (v : Vector Byte n) :
    hexBytes n (v.toList.flatMap formatByte) = v := by
  obtain ⟨⟨bs⟩, rfl⟩ := v
  exact Vector.toList_inj.mp (toList_hexBytes_flatMap_formatByte bs)

theorem length_flatMap_formatByte (bs : List Byte) : (bs.flatMap formatByte).length = 2 * bs.length := by
  simp [List.length_flatMap, formatByte, mul_comm]

/-- The digits of formatted Bytes are the upper-case ones (R211). -/
theorem upperCase_of_mem_flatMap_formatByte {bs : List Byte} {c : Nat} (hc : c ∈ bs.flatMap formatByte) :
    (0x30 ≤ c ∧ c ≤ 0x39) ∨ (0x41 ≤ c ∧ c ≤ 0x46) := by
  obtain ⟨b, -, hb⟩ := List.mem_flatMap.mp hc
  rw [formatByte_eq, List.mem_pair] at hb
  rcases hb with rfl | rfl
  · exact hexDigit_range (by omega)
  · exact hexDigit_range (by omega)

theorem isHex_of_upperCase {c : Nat} (h : (0x30 ≤ c ∧ c ≤ 0x39) ∨ (0x41 ≤ c ∧ c ≤ 0x46)) : isHex c = true :=
  (isHex_iff c).mpr (h.imp_right Or.inl)

/-- A text in upper case is its own upper-casing. -/
theorem map_upperDigit_of_upperCase {txt : Text} (h : ∀ c ∈ txt, (0x30 ≤ c ∧ c ≤ 0x39) ∨ (0x41 ≤ c ∧ c ≤ 0x46)) :
    txt.map upperDigit = txt := by
  have hself : ∀ c ∈ txt, upperDigit c = id c := fun c hc => if_neg (by have hrange := h c hc; omega)
  rw [List.map_congr_left hself, List.map_id]

/-- Settles O40: the one string is the formatted BlockState; any other, formatted back, is itself. -/
theorem everyBlockStateHasOneUpperCaseString : Obligations.EveryBlockStateHasOneUpperCaseString := by
  intro st s
  have hlen : (st.toList.flatMap formatByte).length = 32 := by
    rw [length_flatMap_formatByte, Vector.length_toList]
  refine ⟨st.toList.flatMap formatByte,
    ⟨hlen, fun c hc => upperCase_of_mem_flatMap_formatByte hc, ?parsed⟩, fun h ⟨hlen, hupper, hparsed⟩ => ?unique⟩
  case parsed =>
    rw [exec_parsehex_of_digits hlen fun c hc => isHex_of_upperCase (upperCase_of_mem_flatMap_formatByte hc),
      hexBytes_flatMap_formatByte, State.answer]
  case unique =>
    have hhex : ∀ c ∈ h, isHex c = true := fun c hc => isHex_of_upperCase (hupper c hc)
    rw [exec_eq_next_append_iff, respond, if_neg (by simp [(parseFails_eq_false_iff 32 h).mpr ⟨hlen, hhex⟩])] at hparsed
    have hst : hexBytes 16 h = st := Result.block.inj (Response.ok.inj hparsed)
    calc h
      _ = h.map upperDigit := (map_upperDigit_of_upperCase hupper).symm
      _ = st.toList.flatMap formatByte := by rw [← flatMap_formatByte_hexBytes 16 h hlen hhex, hst]

end Sys2Proof.Machine
end

section
/-! PROOFS. R142 to R148 (42_subbytes.md): the substitution table. SUBBYTES is lane by lane the table, so its laws are
the table's; the default table is compared with R144 through the inverse of the affine map. -/

namespace Sys2Proof.Machine

/-- Mapping a bijection over the lanes is a bijection: its inverse maps the inverse. -/
theorem vectorMap_bijective {n : Nat} {f : Byte → Byte} (h : Function.Bijective f) :
    Function.Bijective fun v : Vector Byte n => v.map f := by
  obtain ⟨inv, hleft, hright⟩ := Function.bijective_iff_has_inverse.mp h
  refine Function.bijective_iff_has_inverse.mpr ⟨fun v => v.map inv, fun v => ?left, fun v => ?right⟩
  case left => simp [Vector.map_map, hleft.comp_eq_id]
  case right => simp [Vector.map_map, hright.comp_eq_id]

theorem subBytes_eq_map (rom : Memory) : subBytes rom = fun st => st.map rom.read := by
  funext st
  ext1 i hi
  simp

/-- R148 (a). -/
theorem subBytes_bijective {rom : Memory} (h : rom.isBijection) : Function.Bijective (subBytes rom) := by
  rw [subBytes_eq_map]
  exact vectorMap_bijective h

/-- SUBBYTES does not see where a lane lies, and SHIFTROWS only moves lanes (R148 b). -/
theorem subBytes_shiftRows (rom : Memory) (st : BlockState) :
    subBytes rom (shiftRows st) = shiftRows (subBytes rom st) := by
  ext1 i hi
  simp

/-- R148 (c): the two orders differ in lane 0 of the BlockState that holds its lane numbers. -/
theorem subBytes_mixColumns_laneNumbers_ne :
    subBytes State.reset.rom (mixColumns laneNumbers) ≠ mixColumns (subBytes State.reset.rom laneNumbers) := by
  intro h
  have hlane : (subBytes State.reset.rom (mixColumns laneNumbers))[0] =
      (mixColumns (subBytes State.reset.rom laneNumbers))[0] := by rw [h]
  exact absurd hlane (by decide)

/-- Settles O42: assembled from the laws above. -/
theorem subbytesLaws : Obligations.SubbytesLaws :=
  ⟨exec_subbytes, fun _ => subBytes_bijective, subBytes_shiftRows, laneNumbers, subBytes_mixColumns_laneNumbers_ne⟩

/-- The inverse of the affine map of R144. -/
def sboxAffineInv (b : Byte) : Byte := b.rotateLeft 1 ^^^ b.rotateLeft 3 ^^^ b.rotateLeft 6 ^^^ 0x05#8

theorem sboxAffineInv_sboxAffine (b : Byte) : sboxAffineInv (sboxAffine b) = b := by
  revert b; decide

theorem sboxAffine_sboxAffineInv (b : Byte) : sboxAffine (sboxAffineInv b) = b := by
  revert b; decide

/-- The Byte whose affine map is the table's entry at `a` is the field inverse of `a`, checked at each of the 256
addresses (R144). -/
theorem isSboxInverse_default (a : Byte) : isSboxInverse a (sboxAffineInv (defaultSbox a)) := by
  unfold isSboxInverse
  revert a; decide +kernel

/-- Settles O43: the affine map is a bijection, so the entry fixes the Byte, which is the field inverse
(`isSboxInverse_default`). -/
theorem defaultTableIsTheAlgebraicOne : Obligations.DefaultTableIsTheAlgebraicOne := by
  refine fun a => ⟨sboxAffineInv (defaultSbox a),
    ⟨isSboxInverse_default a, (sboxAffine_sboxAffineInv _).symm⟩, fun b ⟨_, hb⟩ => ?unique⟩
  case unique =>
    have hentry : defaultSbox a = sboxAffine b := hb
    rw [hentry, sboxAffineInv_sboxAffine]

/-- No entry is its address or the complement of it (R145). -/
theorem defaultSbox_no_fixed_point (a : Byte) : defaultSbox a ≠ a ∧ defaultSbox a ≠ a ^^^ 0xFF#8 := by
  revert a; decide +kernel

/-- The entry 0 is at 0x52, and by injectivity nowhere else (R145). -/
theorem defaultSbox_eq_zero_iff (a : Byte) : defaultSbox a = 0x00#8 ↔ a = 0x52#8 := by
  have hzero : defaultSbox 0x52#8 = 0x00#8 := rfl
  rw [← hzero]
  exact defaultSbox_bijective.injective.eq_iff

/-- Settles O44: the reset ROM reads as the default table; the single entries by evaluation. -/
theorem defaultTableFacts : Obligations.DefaultTableFacts :=
  ⟨defaultSbox_bijective, defaultSbox_no_fixed_point, rfl, rfl, rfl, defaultSbox_eq_zero_iff, rfl⟩

end Sys2Proof.Machine
end

section
/-! PROOFS. R170 to R179 (44_mixcolumns.md): doubling and its laws, then MIXCOLS through one formula for every row of
a column, rows taken in `Fin 4`. -/

namespace Sys2Proof.Machine

/-- The product by 0x8D, which doubling takes to 0x01, undoes doubling (R172). -/
theorem xtime_gmul_8D (b : Byte) : xtime (gmul 0x8D#8 b) = b := by
  calc xtime (gmul 0x8D#8 b)
    _ = gmulBits 8 (xtime 0x8D#8) b := (gmulBits_xtime_left 8 0x8D#8 b).symm
    _ = b := gmul_one_left b

/-- Doubling reaches every Byte, and so is one to one on the 256 of them. -/
theorem xtime_bijective : Function.Bijective xtime :=
  Function.Surjective.bijective_of_finite fun b => ⟨gmul 0x8D#8 b, xtime_gmul_8D b⟩

theorem xtime_inj {a b : Byte} : xtime a = xtime b ↔ a = b := xtime_bijective.injective.eq_iff

/-- R172 on numbers, in both cases of the bit 7 before the shift. -/
theorem toNat_xtime (b : Byte) : (xtime b).toNat =
    if 128 ≤ b.toNat then (2 * b.toNat % 256) ^^^ 0x1B else 2 * b.toNat % 256 := by
  have hbit : b.getLsbD 7 = decide (128 ≤ b.toNat) := BitVec.msb_eq_decide b
  have hshift : (b <<< 1).toNat = 2 * b.toNat % 256 := by
    rw [BitVec.toNat_shiftLeft, Nat.shiftLeft_eq, mul_comm]
  rw [xtime, hbit]
  by_cases hhigh : 128 ≤ b.toNat
  · rw [if_pos (decide_eq_true hhigh), if_pos hhigh, BitVec.toNat_xor, hshift]
    rfl
  · rw [if_neg (by simpa using hhigh), if_neg hhigh, hshift]

/-- Settles O49: the formula, the bijection, and the listed values by evaluation. -/
theorem doublingInTheField : Obligations.DoublingInTheField :=
  ⟨toNat_xtime, xtime_bijective, rfl, rfl, rfl, rfl, rfl, rfl, rfl, rfl, rfl⟩

theorem mul3_xor (a b : Byte) : mul3 (a ^^^ b) = mul3 a ^^^ mul3 b := by
  simp only [mul3, gfAdd, xtime_xor]
  ac_rfl

/-- Settles O50: the multipliers by 2 and 3 are linear because doubling is, and are the products of the same name. -/
theorem multipliersOfTheMatrix : Obligations.MultipliersOfTheMatrix :=
  ⟨fun a b => ⟨rfl, xtime_xor a b, mul3_xor a b⟩,
    fun b => ⟨rfl, rfl, rfl, gmul_one_left b, gmul_two_left b, gmul_three_left b⟩,
    rfl, rfl, rfl, rfl, rfl, rfl, rfl⟩

/-- Settles O47: each column of the result is the mixed column (`getElem_mixColumns_idx`), whose four rows are those of
R177. -/
theorem mixcolsAnswersTheMixedColumns : Obligations.MixcolsAnswersTheMixedColumns := by
  refine fun st s => ⟨mixColumns st, exec_mixcols st s, fun c => ?rows⟩
  case rows =>
    simp only [getElem_mixColumns_idx]
    simp [mixColumn, mul2, mul3, gfAdd]

/-- One row of a mixed column (R177): from the Byte of the row itself and those one, two and three rows on, modulo 4. -/
def mixRow (a b g d : Byte) : Byte := xtime a ^^^ xtime b ^^^ b ^^^ g ^^^ d

theorem getElem_mixColumn_row (v : Word) (r : Fin 4) :
    (mixColumn v)[r] = mixRow v[r] v[r + 1] v[r + 2] v[r + 3] := by
  match r with
  | 0 | 1 | 2 | 3 => simp [mixColumn, mixRow, mul2, mul3, gfAdd]; ac_rfl

/-- One formula for the four rows: each row of the matrix is the row above, rotated (R175). -/
theorem getElem_mixColumns_row (st : BlockState) (r c : Fin 4) : (mixColumns st)[idx r c] =
    mixRow st[idx r c] st[idx (r + 1) c] st[idx (r + 2) c] st[idx (r + 3) c] := by
  rw [getElem_mixColumns_idx, getElem_mixColumn_row]
  simp only [Fin.getElem_fin, getElem_column, Fin.eta]

theorem getElem_xorBlock_fin (st st' : BlockState) (i : Fin 16) : (xorBlock st st')[i] = st[i] ^^^ st'[i] :=
  getElem_xorBlock st st' i i.isLt

theorem mixRow_xor (a b g d a' b' g' d' : Byte) :
    mixRow (a ^^^ a') (b ^^^ b') (g ^^^ g') (d ^^^ d') = mixRow a b g d ^^^ mixRow a' b' g' d' := by
  simp only [mixRow, xtime_xor]
  ac_rfl

theorem xor_cancel_left (a b : Byte) : a ^^^ (a ^^^ b) = b := by
  rw [← BitVec.xor_assoc, BitVec.xor_self, BitVec.zero_xor]

theorem xor_left_comm_byte (a b c : Byte) : a ^^^ (b ^^^ c) = b ^^^ (a ^^^ c) := by
  ac_rfl

theorem xor_xor_eq_self_iff (a x y : Byte) : a ^^^ (x ^^^ y) = a ↔ x = y := by
  calc a ^^^ (x ^^^ y) = a
    _ ↔ a ^^^ (x ^^^ y) = a ^^^ 0#8 := by rw [BitVec.xor_zero]
    _ ↔ x = y := by rw [BitVec.xor_right_inj, BitVec.xor_eq_zero_iff]

/-- A row mixed twice is 5 times itself and 4 times the row two on: every other term occurs twice and cancels. -/
theorem mixRow_mixRow (a b g d : Byte) :
    mixRow (mixRow a b g d) (mixRow b g d a) (mixRow g d a b) (mixRow d a b g) =
      xtime (xtime a) ^^^ a ^^^ xtime (xtime g) := by
  simp only [mixRow, xtime_xor]
  simp only [BitVec.xor_comm, xor_left_comm_byte, BitVec.xor_assoc, xor_cancel_left]

/-- Mixing a column of equal Bytes changes nothing: 2 + 3 + 1 + 1 = 1 in the field. -/
theorem mixRow_self (a : Byte) : mixRow a a a a = a := by
  simp only [mixRow, BitVec.xor_self, BitVec.zero_xor]

/-- In a column (a, b, a, b) a row stays only when the doubled Bytes are equal. -/
theorem mixRow_alternating_eq_iff (a b : Byte) : mixRow a b a b = a ↔ a = b := by
  have hrow : mixRow a b a b = a ^^^ (xtime a ^^^ xtime b) := by
    simp only [mixRow, BitVec.xor_comm, xor_left_comm_byte, xor_cancel_left]
  rw [hrow, xor_xor_eq_self_iff, xtime_inj]

/-- R179 (a). -/
theorem mixColumns_xorBlock (st st' : BlockState) :
    mixColumns (xorBlock st st') = xorBlock (mixColumns st) (mixColumns st') := by
  apply blockState_ext_idx
  intro r c
  simp only [getElem_xorBlock_fin, getElem_mixColumns_row, mixRow_xor]

/-- R179 (c): the square of the matrix has 5 on the diagonal, 4 two places from it, and 0 elsewhere. -/
theorem getElem_mixColumns_two (st : BlockState) (r c : Fin 4) : (mixColumns (mixColumns st))[idx r c] =
    xtime (xtime st[idx r c]) ^^^ st[idx r c] ^^^ xtime (xtime st[idx (r + 2) c]) := by
  rw [← mixRow_mixRow st[idx r c] st[idx (r + 1) c] st[idx (r + 2) c] st[idx (r + 3) c]]
  simp only [getElem_mixColumns_row]
  match r with
  | 0 | 1 | 2 | 3 => rfl

/-- R179 (b): 5 times 5 and 4 times 4, summed, is 1, and the mixed products cancel. -/
theorem mixColumns_four (st : BlockState) : mixColumns (mixColumns (mixColumns (mixColumns st))) = st := by
  apply blockState_ext_idx
  intro r c
  have hrow : r + 2 + 2 = r := by omega
  simp only [getElem_mixColumns_two, xtime_xor, hrow]
  generalize st[idx r c] = a, st[idx (r + 2) c] = g
  simp only [BitVec.xor_comm, xor_left_comm_byte, BitVec.xor_assoc, xor_cancel_left, BitVec.xor_self, BitVec.xor_zero]

/-- R179 (b): three further applications undo one, on either side. -/
theorem mixColumns_bijective : Function.Bijective mixColumns :=
  Function.bijective_iff_has_inverse.mpr
    ⟨fun st => mixColumns (mixColumns (mixColumns st)), mixColumns_four, mixColumns_four⟩

/-- R179 (d), for one Byte: 4 times a row and 4 times the row two on cancel exactly when the two are equal. -/
theorem getElem_mixColumns_two_eq_iff (st : BlockState) (r c : Fin 4) :
    (mixColumns (mixColumns st))[idx r c] = st[idx r c] ↔ st[idx r c] = st[idx (r + 2) c] := by
  rw [getElem_mixColumns_two, BitVec.xor_comm (xtime _), BitVec.xor_assoc, xor_xor_eq_self_iff, xtime_inj,
    xtime_inj]

/-- R179 (d): two applications return exactly the states whose columns have the form (a, b, a, b). -/
theorem mixColumns_two_eq_self_iff (st : BlockState) : mixColumns (mixColumns st) = st ↔
    ∀ c : Fin 4, st[idx 0 c] = st[idx 2 c] ∧ st[idx 1 c] = st[idx 3 c] := by
  constructor
  · intro h c
    have hrow (r : Fin 4) : st[idx r c] = st[idx (r + 2) c] :=
      (getElem_mixColumns_two_eq_iff st r c).mp (by rw [h])
    exact ⟨hrow 0, hrow 1⟩
  · intro h
    apply blockState_ext_idx
    intro r c
    obtain ⟨heven, hodd⟩ := h c
    rw [getElem_mixColumns_two_eq_iff]
    match r with
    | 0 => exact heven
    | 1 => exact hodd
    | 2 => exact heven.symm
    | 3 => exact hodd.symm

/-- R179 (d): one application returns exactly the states whose columns hold one Byte four times. A state it returns,
two return, so its columns are (a, b, a, b); and then a = b. -/
theorem mixColumns_eq_self_iff (st : BlockState) :
    mixColumns st = st ↔ ∀ r c : Fin 4, st[idx r c] = st[idx 0 c] := by
  constructor
  · intro h r c
    obtain ⟨heven, hodd⟩ := (mixColumns_two_eq_self_iff st).mp (by rw [h, h]) c
    have hrow : mixRow st[idx 0 c] st[idx 1 c] st[idx 2 c] st[idx 3 c] = st[idx 0 c] :=
      (getElem_mixColumns_row st 0 c).symm.trans (by rw [h])
    rw [← heven, ← hodd, mixRow_alternating_eq_iff] at hrow
    match r with
    | 0 => rfl
    | 1 => exact hrow.symm
    | 2 => exact heven.symm
    | 3 => exact hodd.symm.trans hrow.symm
  · intro h
    apply blockState_ext_idx
    intro r c
    rw [getElem_mixColumns_row, h r c, h (r + 1) c, h (r + 2) c, h (r + 3) c, mixRow_self]

/-- Settles O51: assembled from the laws above. -/
theorem mixcolsLaws : Obligations.MixcolsLaws :=
  ⟨exec_mixcols, mixColumns_xorBlock, mixColumns_bijective, mixColumns_four, getElem_mixColumns_two,
    mixColumns_two_eq_self_iff, mixColumns_eq_self_iff⟩

end Sys2Proof.Machine
end

section
/-! PROOFS. R72, R73, R255 (30_encoding.md, 70_reset_and_hazards.md): host programs. When a line issues its command,
when it issues none, and what the program does next. -/

namespace Sys2Proof.Machine

/-- The arguments of a line have values exactly when each has one. -/
theorem mapM_eq_some_iff {α β : Type} (f : α → Option β) (l : List α) (vs : List β) :
    l.mapM f = some vs ↔ l.map f = vs.map some := by
  induction l generalizing vs with
  | nil => cases vs <;> simp
  | cons a l ih => cases vs <;> simp [ih, Option.bind_eq_some_iff]

/-- A line whose arguments have values issues the command they build, if the ports can carry it (R72). -/
theorem HostLine.command_eq_filter {l : HostLine} {env : HostEnv} {vs : List HostValue}
    (h : l.args.map (fun a => a.eval env) = vs.map some) (p : Config.Widths) :
    l.command p env = (buildCommand l.operation vs).filter fun i => i.wf p := by
  simp only [HostLine.command, (mapM_eq_some_iff _ _ _).mpr h]

/-- A line with an argument that is not bound issues nothing (R255). -/
theorem HostLine.command_of_unbound {l : HostLine} {env : HostEnv} (h : ∃ a ∈ l.args, a.eval env = none)
    (p : Config.Widths) : l.command p env = none := by
  obtain ⟨a, ha, hnone⟩ := h
  unfold HostLine.command
  split
  case h_1 vs hvs =>
    have hmem : a.eval env ∈ vs.map some :=
      (mapM_eq_some_iff _ _ _).mp hvs ▸ List.mem_map.mpr ⟨a, ha, rfl⟩
    simp [hnone] at hmem
  case h_2 => rfl

/-- A line that issues nothing ends the program. -/
theorem runProgram_of_command_none {l : HostLine} {s : State} {env : HostEnv} (h : l.command s.widths env = none)
    (ls : List HostLine) : runProgram (l :: ls) env s = (env, s) := by
  simp only [runProgram, h]

/-- Settles O54: the four ways a program ends, by what its first line issues. -/
theorem aHostProgramEndsAtTheFirstFailure : Obligations.AHostProgramEndsAtTheFirstFailure := by
  refine ⟨fun s env l ls i t resp hcmd hstep hlast hfail => ?failed,
    fun s env l ls hcmd => runProgram_of_command_none hcmd ls,
    fun s env l ls hunbound => runProgram_of_command_none (HostLine.command_of_unbound hunbound s.widths) ls,
    fun s env l ls vs i hargs hbuild hwide => ?wide⟩
  case failed =>
    simp only [runProgram, hcmd, hstep, hlast]
    cases resp with
    | ok v => exact absurd rfl (hfail v)
    | invalidInput n a lenFlag charFlag => rfl
    | illegalOp => rfl
  case wide =>
    have hcmd : l.command s.widths env = none := by
      rw [HostLine.command_eq_filter hargs, hbuild]
      simp [hwide]
    exact runProgram_of_command_none hcmd ls

/-- A line whose command is answered OK binds the result, and the program goes on (R72). -/
theorem runProgram_cons_ok {l : HostLine} {i : Instr} {v : Result} {s : State} {env : HostEnv} (hidle : s.inputs = [])
    (hcmd : l.command s.widths env = some i) (hdec : decode s.widths (encode s.widths i) = .ok i)
    (hresp : respond s.rom i = .ok v) (ls : List HostLine) :
    runProgram (l :: ls) env s = runProgram ls ((l.target, .ofResult v) :: env) (s.answer (.ok v)) := by
  have hstep := step_issue_of_idle hidle (respondInput_of_decode s.rom hdec)
  rw [hresp] at hstep
  simp only [runProgram, hcmd, hstep, State.answer_responses, List.getLast?_concat]

/-- A line of one argument that is a BlockState issues the operation on it. -/
theorem HostLine.command_of_block {l : HostLine} {a : HostArg} {env : HostEnv} {st : BlockState} {i : Instr}
    {p : Config.Widths} (hargs : l.args = [a]) (ha : a.eval env = some (.block st))
    (hbuild : buildCommand l.operation [.block st] = some i) (hwf : i.wf p = true) : l.command p env = some i := by
  rw [HostLine.command_eq_filter (vs := [.block st]) (by simp [hargs, ha]), hbuild]
  simp [hwf]

/-- Settles O52: each of the three lines is answered OK, and the next one finds its result bound. -/
theorem roundstepsIsTheThreeSteps : Obligations.RoundstepsIsTheThreeSteps := by
  intro st s hidle s1 s2 s3
  rw [roundStepsLines,
    runProgram_cons_ok (s := s) (i := .subbytes st) (v := .block s1) hidle
      (HostLine.command_of_block rfl rfl rfl rfl) (decode_encode_subbytes s.widths st) rfl,
    runProgram_cons_ok (s := s.answer (.ok (.block s1))) (i := .shiftrows s1) (v := .block s2) hidle
      (HostLine.command_of_block rfl rfl rfl rfl) (decode_encode_shiftrows s.widths s1) rfl,
    runProgram_cons_ok (s := (s.answer (.ok (.block s1))).answer (.ok (.block s2))) (i := .mixcols s2)
      (v := .block s3) hidle
      (HostLine.command_of_block rfl rfl rfl rfl) (decode_encode_mixcols s.widths s2) rfl]
  simp [runProgram, State.answer, HostValue.ofResult]

end Sys2Proof.Machine
end

section
/-! PROOFS. R190 to R199 (45_keyschedule.md): NEXTWORD. Its four results by name, the laws of XOR on Words, and the
bijections its steps are. -/

namespace Sys2Proof.Machine

/-- NEXTWORD's third step: SubWord of the rotated word, XOR the round constant (R195). -/
def nextXrc (rom : Memory) (four rcon : Word) : Word := xorWord (subWord rom (rotWord four)) rcon

/-- NEXTWORD's result: the third step, XOR the prior word (R195). -/
def nextOut (rom : Memory) (prev four rcon : Word) : Word := xorWord (nextXrc rom four rcon) prev

/-- NEXTWORD delivers its result and the three intermediates and changes nothing else (R195, R196). -/
theorem exec_nextword (prev four rcon : Word) (s : State) : exec (.nextword prev four rcon) s =
    .next (s.answer (.ok (.keyWord (nextOut s.rom prev four rcon) (rotWord four) (subWord s.rom (rotWord four))
      (nextXrc s.rom four rcon)))) :=
  exec_eq_answer (.nextword prev four rcon) s

theorem getElem_subWord_fin (rom : Memory) (w : Word) (i : Fin 4) : (subWord rom w)[i] = rom.read w[i] :=
  getElem_subWord rom w i i.isLt

theorem getElem_xorWord_fin (a b : Word) (i : Fin 4) : (xorWord a b)[i] = a[i] ^^^ b[i] :=
  getElem_xorWord a b i i.isLt

theorem getElem_unpackWord_zero (i : Fin 4) : (unpackWord 0)[i] = 0#8 := by
  revert i; decide

theorem xorWord_zero (a : Word) : xorWord a (unpackWord 0) = a := by
  apply word_ext
  intro i
  rw [getElem_xorWord_fin, getElem_unpackWord_zero, BitVec.xor_zero]

theorem xorWord_self (a : Word) : xorWord a a = unpackWord 0 := by
  apply word_ext
  intro i
  rw [getElem_xorWord_fin, getElem_unpackWord_zero, BitVec.xor_self]

theorem xorWord_assoc (a b c : Word) : xorWord (xorWord a b) c = xorWord a (xorWord b c) := by
  apply word_ext
  intro i
  simp only [getElem_xorWord_fin, BitVec.xor_assoc]

theorem xorWord_comm (a b : Word) : xorWord a b = xorWord b a := by
  apply word_ext
  intro i
  simp only [getElem_xorWord_fin, BitVec.xor_comm]

/-- XORing the same Word twice changes nothing. -/
theorem xorWord_cancel_right (a b : Word) : xorWord (xorWord a b) b = a := by
  rw [xorWord_assoc, xorWord_self, xorWord_zero]

/-- The result byte by byte: the table's entry one offset up, XOR the constant's and the prior word's Byte (R195). -/
theorem getElem_nextOut (rom : Memory) (prev four rcon : Word) (i : Fin 4) :
    (nextOut rom prev four rcon)[i] = rom.read four[i + 1] ^^^ rcon[i] ^^^ prev[i] := by
  rw [nextOut, nextXrc, getElem_xorWord_fin, getElem_xorWord_fin, getElem_subWord_fin, getElem_rotWord]

theorem rotWord_unpackWord_zero : rotWord (unpackWord 0) = unpackWord 0 := rfl

/-- R195's example in the default table. -/
theorem respond_nextword_example :
    respond [] (.nextword (unpackWord 0x1A91F720) (unpackWord 0x10000000) (unpackWord 0x10000000)) =
      .ok (.keyWord (unpackWord 0x69F294EA) (unpackWord 0x00000010) (unpackWord 0x636363CA)
        (unpackWord 0x736363CA)) := by
  decide +kernel

/-- Settles O55: the code by the decoder, the steps by their definitions, the corner cases by the laws of XOR, and the
example by evaluation. -/
theorem nextwordAnswersTheFourSteps : Obligations.NextwordAnswersTheFourSteps := by
  refine ⟨fun p r hop => decode_of_op_eq_codeOf (o := .nextword) hop, fun prev four rcon s =>
    ⟨_, _, _, _, exec_nextword prev four rcon s, rfl, fun i => ⟨?sub, ?xrc, ?out, ?closed⟩,
      ?noConstant, ?noPrior, ?cancelled, ?zero⟩, fun s hrom => ?exampleOfR195⟩
  case sub => exact getElem_subWord_fin s.rom (rotWord four) i
  case xrc => exact getElem_xorWord_fin _ rcon i
  case out => exact getElem_xorWord_fin _ prev i
  case closed => exact getElem_nextOut s.rom prev four rcon i
  case noConstant =>
    rintro rfl
    rw [nextXrc, xorWord_zero]
  case noPrior =>
    rintro rfl
    rw [nextOut, xorWord_zero]
  case cancelled =>
    rintro rfl
    rw [nextOut, xorWord_self]
  case zero =>
    rintro rfl rfl rfl
    refine ⟨rotWord_unpackWord_zero, by rw [nextOut, nextXrc, xorWord_zero, xorWord_zero], fun i => ?entry⟩
    case entry => rw [getElem_subWord_fin, rotWord_unpackWord_zero, getElem_unpackWord_zero]
  case exampleOfR195 => rw [exec_eq_answer, State.answer, hrom, respond_nextword_example]

/-- Four rotations by one Byte are none. -/
theorem rotWord_four (w : Word) : rotWord (rotWord (rotWord (rotWord w))) = w := by
  apply word_ext
  intro i
  have hlane : i + 1 + 1 + 1 + 1 = i := by omega
  simp only [getElem_rotWord, hlane]

theorem rotWord_bijective : Function.Bijective rotWord :=
  Function.bijective_iff_has_inverse.mpr
    ⟨fun w => rotWord (rotWord (rotWord w)), rotWord_four, rotWord_four⟩

theorem subWord_eq_map (rom : Memory) : subWord rom = fun w => w.map rom.read := by
  funext w
  ext1 i hi
  simp

theorem subWord_bijective {rom : Memory} (h : rom.isBijection) : Function.Bijective (subWord rom) := by
  rw [subWord_eq_map]
  exact vectorMap_bijective h

/-- XOR with a fixed Word undoes itself, and so is a bijection. -/
theorem xorWord_right_bijective (b : Word) : Function.Bijective fun a => xorWord a b :=
  Function.Involutive.bijective fun a => xorWord_cancel_right a b

/-- With a bijective table every step is a bijection of `four`, and so is the result (R198). -/
theorem nextOut_bijective {rom : Memory} (h : rom.isBijection) (prev rcon : Word) :
    Function.Bijective fun four => nextOut rom prev four rcon :=
  (xorWord_right_bijective prev).comp
    ((xorWord_right_bijective rcon).comp ((subWord_bijective h).comp rotWord_bijective))

theorem nextOut_xorWord_prev (rom : Memory) (prev four rcon d : Word) :
    nextOut rom (xorWord prev d) four rcon = xorWord (nextOut rom prev four rcon) d :=
  (xorWord_assoc _ prev d).symm

theorem nextOut_xorWord_rcon (rom : Memory) (prev four rcon d : Word) :
    nextOut rom prev four (xorWord rcon d) = xorWord (nextOut rom prev four rcon) d := by
  simp only [nextOut, nextXrc, xorWord_assoc, xorWord_comm d prev]

/-- Settles O57: the functions are NEXTWORD's own steps; the host's checks cancel the last XOR. -/
theorem nextwordLaws : Obligations.NextwordLaws := by
  intro s
  exact ⟨nextOut s.rom, rotWord, fun four => subWord s.rom (rotWord four), nextXrc s.rom,
    fun prev four rcon => exec_nextword prev four rcon s, nextOut_xorWord_prev s.rom, nextOut_xorWord_rcon s.rom,
    fun prev rcon h => nextOut_bijective h prev rcon,
    fun _ _ _ => ⟨xorWord_cancel_right _ _, xorWord_cancel_right _ _⟩⟩

end Sys2Proof.Machine
end
